-- ==== Sys2Proof/Word.lean ====
section
/-! DEFINITION. The two scalar types of the block: bytes and position markers. -/

namespace Sys2Proof

/-- A byte (00_scope.md R5: "8 bits, values 0 to 255"). -/
abbrev Byte := BitVec 8

/-- A position marker. The spec leaves its width `POS_W` open (00_scope.md R5) and the block only copies
markers (30_encoding.md R41), so it is a number, not a word.
Mark: DESIGN CHOICE, safe (log 1). -/
abbrev Pos := Nat

end Sys2Proof
end

