-- ==== Sys2Proof/Config.lean ====
section
/-! DEFINITION. The fixed sizes of 00_scope.md R5, the open parameters, and the free values that stand for
contents the spec calls unspecified. -/

namespace Sys2Proof.Config

/-- Accumulator depth: "130 entries of 8 bits" (00_scope.md R5; 90_conflicts.md C2). -/
def bufDepth : Nat := 130

/-- `ERR_AUTO_EXIT`: "parameter, default `false`" (00_scope.md R5). The value a machine holds is the field
`errAutoExit` of State, so that claims cover both values (log 2). -/
def errAutoExitDefault : Bool := false

/-- Free value: `dest_id` after the n-th `RESET` (70_reset_and_hazards.md R107: unspecified; log 4). -/
opaque unspecifiedDestId : Nat → Byte

/-- Free value: `src_id` after the n-th `RESET` (R107; log 4). -/
opaque unspecifiedSrcId : Nat → Byte

/-- Free value: `fstart` after the n-th `RESET` (R107; log 4). -/
opaque unspecifiedFstart : Nat → Pos

/-- Free value: `fend` after the n-th `RESET` (R107; log 4). -/
opaque unspecifiedFend : Nat → Pos

/-- Free value: accumulator entry `i`, not written since the n-th `RESET` (R107; 93_implementation_defined.md
U1, U2: "any value"; log 5). First argument n, second i. -/
opaque unspecifiedEntry : Nat → Nat → Byte

/-- `ANN_TEXT`: the medium and the short text of the annotation label with this code (30_encoding.md R51,
92_eei_decisions.md D24: OPEN; log 13). -/
opaque annText : BitVec 3 → String × String

/-- `DUMP_HEADER_TEXT` (30_encoding.md R53: OPEN; log 13). -/
opaque dumpHeaderText : String

/-- `HEX_FMT`: how a payload byte is spelled (30_encoding.md R53: OPEN; log 13). -/
opaque hexFmt : Byte → String

/-- `ID_FMT`: how a source or destination ID is spelled (30_encoding.md R53: OPEN; log 13). -/
opaque idFmt : Byte → String

/-- `EOL`: the line terminator of dump lines (30_encoding.md R53: OPEN; log 13). -/
opaque eol : String

end Sys2Proof.Config
end

