-- ==== Sys2Proof/Syntax.lean ====
section
/-! DEFINITION. The operations of spec/opcode_table.json, one constructor per row, and the keys they are
encoded in. -/

namespace Sys2Proof

/-- The four FSM states (10_state.md R14). -/
inductive FsmState where
  | header
  | data
  | checksum
  | error
deriving DecidableEq, Repr

/-- The two formats of the opcode table (30_encoding.md R54). -/
inductive Format where
  | byte
  | cmd
deriving DecidableEq, Repr

/-- A dispatch key: the 12-bit BYTE key `K` (30_encoding.md R43) or the 3-bit CMD key `C` (R44). -/
inductive Key where
  | byte (k : BitVec 12)
  | cmd (c : BitVec 3)
deriving DecidableEq, Repr

/-- The operations (30_encoding.md R54). A constructor carries exactly the bits its row leaves free, the
ignored ones too; `hdrSof` and `hdrBad` carry the whole byte, whose bit 7 their rows fix (`Instr.wf`). The
positions of a byte travel beside the word (R41) and are read from the input port. -/
inductive Instr where
  /-- `NOP`, 40_fsm.md R68. -/
  | nop (st : FsmState) (isData : Bool) (value : Byte)
  /-- `IGNORE`, 44_error_and_nondata.md R93. -/
  | ignore (st : FsmState) (value : Byte)
  /-- `HDR_SOF`, 41_header.md R69. -/
  | hdrSof (value : Byte)
  /-- `HDR_BAD`, 41_header.md R71. -/
  | hdrBad (value : Byte)
  /-- `DATA`, 42_data.md R73. -/
  | data (value : Byte)
  /-- `CKSUM`, 43_checksum.md R81. -/
  | cksum (value : Byte)
  /-- `ERR_BYTE`, 44_error_and_nondata.md R92. -/
  | errByte (value : Byte)
  /-- `RESET`, 40_fsm.md R67; the command bits are discarded. -/
  | reset (cmd : BitVec 2)
  /-- `CMD_NONE`, 40_fsm.md R63. -/
  | cmdNone
  /-- `CMD_TO_HEADER`, 40_fsm.md R64. -/
  | cmdToHeader
  /-- `CMD_TO_ERROR`, 40_fsm.md R65. -/
  | cmdToError
  /-- `CMD_RSVD`, 40_fsm.md R66. -/
  | cmdRsvd
deriving DecidableEq, Repr

end Sys2Proof
end

