-- ==== Sys2Proof/Machine/State.lean ====
section
/-! DEFINITION. The state of the block, its inputs and output events, and the reasons a step can stop. -/

namespace Sys2Proof.Machine

/-! ## Output events (30_encoding.md R49 to R52) -/

/-- Annotation categories (30_encoding.md R49). -/
inductive Category where
  | data
  | control
  | error
  | inlineError
deriving DecidableEq, Repr

/-- Annotation labels (30_encoding.md R51). -/
inductive Label where
  | header
  | destination
  | source
  | data
  | checksum
  | sofMalformed
  | checksumInvalid
  | error
deriving DecidableEq, Repr

/-- The two kinds of frame (30_encoding.md R48): a tester request or a device response. -/
inductive Role where
  | tester
  | device
deriving DecidableEq, Repr

/-- The output channels that carry events (30_encoding.md R50). -/
inductive Channel where
  | annotation
  | structured
  | rawBinary
deriving DecidableEq, Repr

/-- Output events (30_encoding.md R50): the span, then the fields. A raw frame's tag 0 or 1 is its role
(R52). -/
inductive Event where
  /-- `ANN`. -/
  | ann (start stop : Pos) (cat : Category) (label : Label) (value : Byte)
  /-- `REC`. -/
  | record (start stop : Pos) (dest src : Byte) (data : List Byte)
  /-- `BIN`. -/
  | bin (start stop : Pos) (tag : Role) (bytes : List Byte)
  /-- `DUMPHDR`. -/
  | dumpHdr (start stop : Pos)
  /-- `DUMPROW`. -/
  | dumpRow (start stop : Pos) (role : Role) (src dest : Byte) (payload : List Byte) (valid : Bool)
deriving DecidableEq, Repr

/-! ## Inputs and derived classes -/

/-- The input tuple of one step (30_encoding.md R41). -/
structure Input where
  rst : Bool
  cmd : BitVec 2
  valid : Bool
  isData : Bool
  value : Byte
  start : Pos
  stop : Pos
deriving DecidableEq, Repr

/-- No reset, no command, no input event (the stimulus `IDLE` of 30_encoding.md R57). -/
def Input.idle : Input :=
  { rst := false, cmd := 0#2, valid := false, isData := false, value := 0#8, start := 0, stop := 0 }

/-- Position classes of a frame byte (30_encoding.md R47). -/
inductive PositionClass where
  | header
  | destination
  | source
  | payload
deriving DecidableEq, Repr

/-- The errors of 60_exceptions.md R96, E1 to E5 in order. -/
inductive ErrorCode where
  | malformedHeader
  | checksumMismatch
  | illegalTransition
  | nonDataEvent
  | errorStateByte
deriving DecidableEq, Repr

/-! ## The state -/

/-- The state: the elements of 10_state.md R13, the outputs of the last step (30_encoding.md R40), the inputs
(R41), and the model's own configuration and free-value fields. -/
structure State where
  /-- FSM state (R14). -/
  st : FsmState
  /-- Bytes the frame must reach, checksum not counted (R15). -/
  expLen : Byte
  /-- Bytes in the accumulator (R16). -/
  cnt : Byte
  /-- Accumulator entries written since the last reset, by rising index (R17; log 5). -/
  buf : List Host.Cell
  /-- Destination identifier (R18). -/
  destId : Byte
  /-- Source identifier (R19). -/
  srcId : Byte
  /-- Running checksum (R20). -/
  sum : Byte
  /-- `frame_start_pos` (R21). -/
  fstart : Pos
  /-- `frame_end_pos` (R22). -/
  fend : Pos
  /-- `checksum_valid` (R23). -/
  csValid : Bool
  /-- The one-time dump header has been emitted (R24). -/
  dumpHdrDone : Bool
  /-- Output `cmd_ack` of the last step (R40). -/
  cmdAck : Bool
  /-- Output events of the last step, in order (R40, R56). -/
  events : List Event
  /-- The input tuple on the ports (R41); the model's own field (log 7). -/
  inp : Input
  /-- Input tuples not yet taken, oldest first; the model's own field (log 7). -/
  pending : List Input
  /-- The parameter `ERR_AUTO_EXIT` (00_scope.md R5); no step writes it (log 2). -/
  errAutoExit : Bool
  /-- Resets so far: selects the free values of unspecified contents; the model's own field (log 6). -/
  resets : Nat
deriving DecidableEq, Repr

/-- Why a step stops with a fault. -/
inductive Fault where
  /-- An accumulator access at index 130 or more, where no entry exists (20_memory.md R28, R33). Raised by
  `DATA` and `CKSUM`, and only in states the invariant of 10_state.md R27 excludes. Safe (log 9). -/
  | bufIndexOutOfRange
deriving DecidableEq, Repr

/-- Why a step is refused. -/
inductive Refusal where
  /-- An instruction with no meaning yet, by its mnemonic. Raised by `exec` only, and by no arm of it now.
  Safe. -/
  | notModelled (mnemonic : String)
deriving DecidableEq, Repr

/-- The state after reset (70_reset_and_hazards.md R107). The spec leaves `destId`, `srcId`, `fstart` and
`fend` unspecified there; zero is the model's choice.
Mark: DESIGN CHOICE, unsafe (log 3). Accumulator entries stay free values (log 5). -/
def State.reset : State :=
  { st := .header
    expLen := 0#8
    cnt := 0#8
    buf := []
    destId := 0#8
    srcId := 0#8
    sum := 0#8
    fstart := 0
    fend := 0
    csValid := false
    dumpHdrDone := false
    cmdAck := false
    events := []
    inp := Input.idle
    pending := []
    errAutoExit := Config.errAutoExitDefault
    resets := 0 }

end Sys2Proof.Machine
end

