-- ==== Sys2Proof/Machine/Flags.lean ====
section
/-! DEFINITION. The checksum arithmetic and the flag it sets. -/

namespace Sys2Proof.Machine

/-- One step of the running checksum: 8-bit wrap-around addition (42_data.md R79). -/
def addToSum (sum v : Byte) : Byte := sum + v

/-- `cs_valid`: the running sum equals the checksum byte (43_checksum.md R82). -/
def checksumMatches (sum c : Byte) : Bool := decide (sum = c)

/-- The exact sum of a byte list, "without truncation during accumulation" (43_checksum.md R82, R90). -/
def exactSum : List Byte → Nat
  | [] => 0
  | b :: bs => b.toNat + exactSum bs

end Sys2Proof.Machine
end

