-- ==== Sys2Proof/Machine/Operands.lean ====
section
/-! DEFINITION. Operand assembly and the constant maps of the outputs: the length decoder, position classes,
the tester range, categories, labels, tags and channels. -/

namespace Sys2Proof.Machine

/-- The length decoder: `exp_len = zext_8(h[6:0]) + 3` (41_header.md R70). -/
def decodeLength (h : Byte) : Byte :=
  (h.extractLsb' 0 7).setWidth 8 + 3#8

/-- Position class of 1-based position `p` (30_encoding.md R47, the chain of 42_data.md R73). -/
def positionClass (p : Byte) : PositionClass :=
  if p = 1#8 then .header
  else if p = 2#8 then .destination
  else if p = 3#8 then .source
  else .payload

/-- Tester request iff the source ID is in `0xF0..0xFD` (30_encoding.md R48, 43_checksum.md R83). -/
def roleOfSource (src : Byte) : Role :=
  if 0xF0#8 ≤ src ∧ src ≤ 0xFD#8 then .tester else .device

/-- Category of each label (30_encoding.md R51). -/
def labelCategory : Label → Category
  | .header => .control
  | .destination => .control
  | .source => .control
  | .data => .data
  | .checksum => .control
  | .sofMalformed => .inlineError
  | .checksumInvalid => .inlineError
  | .error => .error

/-- Code of each label (30_encoding.md R51). -/
def labelCode : Label → BitVec 3
  | .header => 0#3
  | .destination => 1#3
  | .source => 2#3
  | .data => 3#3
  | .checksum => 4#3
  | .sofMalformed => 5#3
  | .checksumInvalid => 6#3
  | .error => 7#3

/-- Index of each category (30_encoding.md R49). -/
def categoryCode : Category → BitVec 2
  | .data => 0#2
  | .control => 1#2
  | .error => 2#2
  | .inlineError => 3#2

/-- Raw-binary tag of a frame record (30_encoding.md R52). -/
def roleTag : Role → Nat
  | .tester => 0
  | .device => 1

/-- Channel of an event (30_encoding.md R50): dump lines go on the raw-binary channel, tag 2. -/
def eventChannel : Event → Channel
  | .ann _ _ _ _ _ => .annotation
  | .record _ _ _ _ _ => .structured
  | .bin _ _ _ _ => .rawBinary
  | .dumpHdr _ _ => .rawBinary
  | .dumpRow _ _ _ _ _ _ _ => .rawBinary

/-- Tag of an event on the raw-binary channel (30_encoding.md R52). -/
def eventTag : Event → Option Nat
  | .ann _ _ _ _ _ => none
  | .record _ _ _ _ _ => none
  | .bin _ _ role _ => some (roleTag role)
  | .dumpHdr _ _ => some 2
  | .dumpRow _ _ _ _ _ _ _ => some 2

/-- Start of an event's span (30_encoding.md R50). -/
def eventStart : Event → Pos
  | .ann a _ _ _ _ => a
  | .record a _ _ _ _ => a
  | .bin a _ _ _ => a
  | .dumpHdr a _ => a
  | .dumpRow a _ _ _ _ _ _ => a

/-- End of an event's span (30_encoding.md R50). -/
def eventStop : Event → Pos
  | .ann _ b _ _ _ => b
  | .record _ b _ _ _ => b
  | .bin _ b _ _ => b
  | .dumpHdr _ b => b
  | .dumpRow _ b _ _ _ _ _ => b

/-- The events of one channel, in their order (20_memory.md R39). -/
def onChannel (ch : Channel) (evs : List Event) : List Event :=
  evs.filter (fun e => eventChannel e == ch)

end Sys2Proof.Machine
end

