-- ==== Sys2Proof/Machine/Ops.lean ====
section
/-! DEFINITION. The shared operations over State: the accumulator, event emission, error reports, the FSM's
checked transition and the sequencing of partial operations. -/

namespace Sys2Proof.Machine

/-- What a meaning answers. -/
abbrev Result := Host.Outcome State Fault Refusal

/-- Run `k` on the next state; a stop stays a stop. -/
def andThen (r : Result) (k : State → Result) : Result :=
  match r with
  | .next s => k s
  | .fault f => .fault f
  | .refused f => .refused f

/-! ## The accumulator (20_memory.md R28 to R30) -/

/-- The byte listed at an index. -/
def cellGet : List Host.Cell → Nat → Option Byte
  | [], _ => none
  | (x, b) :: cells, i => if x = i then some b else cellGet cells i

/-- Write one cell and keep the indexes rising. -/
def cellSet : List Host.Cell → Nat → Byte → List Host.Cell
  | [], i, v => [(i, v)]
  | (x, b) :: cells, i, v =>
    if i < x then (i, v) :: (x, b) :: cells
    else if i = x then (i, v) :: cells
    else (x, b) :: cellSet cells i v

/-- Indexes rise strictly from `low` and stay below the depth. -/
def cellsRiseFrom (low : Nat) : List Host.Cell → Bool
  | [] => true
  | (x, _) :: cells => decide (low ≤ x) && decide (x < Config.bufDepth) && cellsRiseFrom (x + 1) cells

/-- The canonical form of the accumulator: strictly rising indexes, all below 130 (20_memory.md R28). -/
def Memory.wf (cells : List Host.Cell) : Bool := cellsRiseFrom 0 cells

/-- What an unlisted entry reads as: a free value (93_implementation_defined.md U1, U2; log 5). -/
def unlistedEntry (s : State) (i : Nat) : Byte := Config.unspecifiedEntry s.resets i

/-- `buf[i]` (00_scope.md R7). -/
def bufRead (s : State) (i : Nat) : Byte := (cellGet s.buf i).getD (unlistedEntry s i)

/-- `BufWrite(i, v)` (20_memory.md R29), for an index that exists. -/
def bufWrite (i : Nat) (v : Byte) (s : State) : State := { s with buf := cellSet s.buf i v }

/-- `BufSlice(a, cnt - 1)`, empty when `cnt ≤ a` (00_scope.md R7; 20_memory.md R30). -/
def frameSlice (s : State) (a : Nat) : List Byte :=
  (List.range' a (s.cnt.toNat - a)).map (bufRead s)

/-- The sum of `buf[0..n-1]` modulo 256 (10_state.md R20, R27 item 4). -/
def bufSum (s : State) (n : Nat) : Byte :=
  BitVec.ofNat 8 (exactSum ((List.range n).map (bufRead s)))

/-! ## Events and error reports -/

/-- `emit(ev)` (00_scope.md R7). -/
def emit (ev : Event) (s : State) : State := { s with events := s.events ++ [ev] }

/-- Emit an annotation about the input byte, over its own span (30_encoding.md R50). -/
def emitAnn (label : Label) (v : Byte) (s : State) : State :=
  emit (.ann s.inp.start s.inp.stop (labelCategory label) label v) s

/-- `raise E(info)`: "It never traps. It means only the `emit` or the `cmd_ack` value that the error's row
names" (00_scope.md R7; the rows are 60_exceptions.md R96). The one shared operation for every error. -/
def raiseError (e : ErrorCode) (v : Byte) (s : State) : State :=
  match e with
  | .malformedHeader => emitAnn .sofMalformed v s
  | .checksumMismatch => emitAnn .checksumInvalid v s
  | .illegalTransition => { s with cmdAck := false }
  | .nonDataEvent => s
  | .errorStateByte => emitAnn .error v s

/-! ## The FSM -/

/-- The allowed table (40_fsm.md R59), targets other than `Error`. -/
def allowed (src dst : FsmState) : Bool :=
  match src, dst with
  | .header, .data => true
  | .data, .data => true
  | .data, .checksum => true
  | .checksum, .header => true
  | .error, .header => true
  | .header, .header => false
  | .header, .checksum => false
  | .header, .error => false
  | .data, .header => false
  | .data, .error => false
  | .checksum, .data => false
  | .checksum, .checksum => false
  | .checksum, .error => false
  | .error, .data => false
  | .error, .checksum => false
  | .error, .error => false

/-- `try_transition(T)` (40_fsm.md R58): the state after it and its result. Into `Error` it is always
permitted, with no other effect: the entry of 60_exceptions.md R99. Into `Header` from `Error` it is the exit
of R100, which restores nothing. -/
def tryTransition (target : FsmState) (s : State) : State × Bool :=
  if target = .error then ({ s with st := .error }, true)
  else if allowed s.st target then ({ s with st := target }, true)
  else (s, false)

/-- A handler's own transition: its result "always succeeds" and is dropped (40_fsm.md R62). -/
def goTo (target : FsmState) (s : State) : State := (tryTransition target s).1

/-- An external command's transition: the result goes to `cmd_ack`, and a rejection is `ILLEGAL_TRANSITION`
(40_fsm.md R64, R65; 60_exceptions.md R96 E3). -/
def commandTransition (target : FsmState) (s : State) : State :=
  let r := tryTransition target s
  if r.2 then { r.1 with cmdAck := true } else raiseError .illegalTransition s.inp.value r.1

end Sys2Proof.Machine
end

