-- ==== Sys2Proof/Machine/Checksum.lean ====
section
/-! DEFINITION. The checksum handler and the frame outputs (43_checksum.md). -/

namespace Sys2Proof.Machine

/-- The validity decision and its report (43_checksum.md R82, R84, R85): the record of a valid frame, the
error annotation of an invalid one. -/
def reportValidity (c : Byte) (s : State) : State :=
  let valid := checksumMatches s.sum c
  let s := { s with csValid := valid }
  if valid then emit (.record s.fstart s.fend s.destId s.srcId (frameSlice s 3)) s
  else raiseError .checksumMismatch c s

/-- The raw frame record (43_checksum.md R86). -/
def emitRawFrame (c : Byte) (s : State) : State :=
  emit (.bin s.fstart s.inp.stop (roleOfSource s.srcId) (frameSlice s 0 ++ [c])) s

/-- The one-time dump header (43_checksum.md R87). -/
def emitDumpHeaderOnce (s : State) : State :=
  if s.dumpHdrDone then s
  else { emit (.dumpHdr s.fstart s.inp.stop) s with dumpHdrDone := true }

/-- The dump row (43_checksum.md R88). -/
def emitDumpRow (s : State) : State :=
  emit (.dumpRow s.fstart s.inp.stop (roleOfSource s.srcId) s.srcId s.destId (frameSlice s 3) s.csValid) s

/-- Frame completion (43_checksum.md R89): truncated, not erased. -/
def completeFrame (s : State) : State := goTo .header { s with cnt := 0#8, sum := 0#8 }

/-- `CKSUM` (43_checksum.md R81), the events in the handler's order. The slices reach up to `cnt - 1`, which
must exist (20_memory.md R28; log 9). -/
def execCksum (value : Byte) (s : State) : Result :=
  if s.cnt.toNat ≤ Config.bufDepth then
    .next (completeFrame (emitDumpRow (emitDumpHeaderOnce (emitRawFrame value
      (reportValidity value (emitAnn .checksum value s))))))
  else .fault .bufIndexOutOfRange

end Sys2Proof.Machine
end

