-- ==== Sys2Proof/Machine/Control.lean ====
section
/-! DEFINITION. The CMD rows and the two rows that do nothing (40_fsm.md R63 to R68; 44_error_and_nondata.md
R93). -/

namespace Sys2Proof.Machine

/-- `NOP` (40_fsm.md R68): "No state is written and no event is emitted." -/
def execNop (s : State) : Result := .next s

/-- `IGNORE` (44_error_and_nondata.md R93): reports E4, which shows nowhere. -/
def execIgnore (value : Byte) (s : State) : Result := .next (raiseError .nonDataEvent value s)

/-- `CMD_NONE` (40_fsm.md R63). -/
def execCmdNone (s : State) : Result := .next { s with cmdAck := false }

/-- `CMD_TO_HEADER` (40_fsm.md R64). -/
def execCmdToHeader (s : State) : Result := .next (commandTransition .header s)

/-- `CMD_TO_ERROR` (40_fsm.md R65). -/
def execCmdToError (s : State) : Result := .next (commandTransition .error s)

/-- `CMD_RSVD` (40_fsm.md R66): the no-op the spec recommends (93_implementation_defined.md U4; log 14). -/
def execCmdRsvd (s : State) : Result := .next { s with cmdAck := false }

/-- The elements whose contents are unspecified after `RESET` (70_reset_and_hazards.md R107): fresh free
values, chosen by the count of resets.
Mark: DESIGN CHOICE, safe (log 4, 5, 6). -/
def forgetUnspecified (s : State) : State :=
  { s with
    buf := []
    destId := Config.unspecifiedDestId s.resets
    srcId := Config.unspecifiedSrcId s.resets
    fstart := Config.unspecifiedFstart s.resets
    fend := Config.unspecifiedFend s.resets
    resets := s.resets + 1 }

/-- `RESET` (40_fsm.md R67). -/
def execReset (s : State) : Result :=
  .next { forgetUnspecified s with
    st := .header
    expLen := 0#8
    cnt := 0#8
    sum := 0#8
    csValid := false
    dumpHdrDone := false
    cmdAck := false }

end Sys2Proof.Machine
end

