-- ==== Sys2Proof/Machine/Data.lean ====
section
/-! DEFINITION. The data handler and the payload accumulator (42_data.md). -/

namespace Sys2Proof.Machine

/-- The append of `DATA_ACTION` (42_data.md R73, R79; 20_memory.md R29). Index 130 and up does not exist:
the model's consistency check (20_memory.md R33; log 9). -/
def appendByte (v : Byte) (s : State) : Result :=
  if s.cnt.toNat < Config.bufDepth then
    .next { bufWrite s.cnt.toNat v s with cnt := s.cnt + 1#8, sum := addToSum s.sum v }
  else .fault .bufIndexOutOfRange

/-- `POS_HEADER` (42_data.md R74). -/
def posHeader (v : Byte) (s : State) : State := emitAnn .header v s

/-- `POS_DEST` (42_data.md R75). -/
def posDest (v : Byte) (s : State) : State :=
  emitAnn .destination v { s with destId := v, fstart := s.inp.start }

/-- `POS_SRC` (42_data.md R76). -/
def posSrc (v : Byte) (s : State) : State := emitAnn .source v { s with srcId := v }

/-- `POS_PAYLOAD` (42_data.md R77). -/
def posPayload (v : Byte) (s : State) : State := emitAnn .data v s

/-- The position sub-cases of `DATA_ACTION`, on `p = cnt` after the append (42_data.md R73). -/
def classifyByte (v : Byte) (s : State) : State :=
  match positionClass s.cnt with
  | .header => posHeader v s
  | .destination => posDest v s
  | .source => posSrc v s
  | .payload => posPayload v s

/-- The end-of-data check and `END_OF_DATA` (42_data.md R78): equality only. -/
def endOfData (s : State) : State :=
  if s.cnt = s.expLen then goTo .checksum { s with fend := s.inp.stop } else s

/-- `DATA_ACTION` (42_data.md R73), shared with `HDR_SOF`. -/
def dataAction (v : Byte) (s : State) : Result :=
  andThen (appendByte v s) (fun t => .next (endOfData (classifyByte v t)))

/-- `DATA` (42_data.md R73). -/
def execData (value : Byte) (s : State) : Result := dataAction value s

end Sys2Proof.Machine
end

