-- ==== Sys2Proof/Machine/ErrorState.lean ====
section
/-! DEFINITION. The handler of a data byte in `Error` (44_error_and_nondata.md R92). -/

namespace Sys2Proof.Machine

/-- `ERR_BYTE` (44_error_and_nondata.md R92), for both values of `ERR_AUTO_EXIT` (log 2). -/
def execErrByte (value : Byte) (s : State) : Result :=
  let t := raiseError .errorStateByte value s
  .next (if t.errAutoExit then goTo .header t else t)

end Sys2Proof.Machine
end

