-- ==== Sys2Proof/Machine/Header.lean ====
section
/-! DEFINITION. The header handler (41_header.md). -/

namespace Sys2Proof.Machine

/-- What `HDR_SOF` does before the re-dispatch (41_header.md R69): decode the length, clear the accumulator's
count and sum, move to `Data`. -/
def startFrame (h : Byte) (s : State) : State :=
  goTo .data { s with expLen := decodeLength h, cnt := 0#8, sum := 0#8 }

/-- `HDR_SOF` (41_header.md R69): the header byte is itself the first data byte, in the same step. -/
def execHdrSof (value : Byte) (s : State) : Result := dataAction value (startFrame value s)

/-- `HDR_BAD` (41_header.md R71). -/
def execHdrBad (value : Byte) (s : State) : Result := .next (raiseError .malformedHeader value s)

end Sys2Proof.Machine
end

