-- ==== Sys2Proof/Machine/Dispatch.lean ====
section
/-! DEFINITION. One arm per operation of spec/opcode_table.json. -/

namespace Sys2Proof.Machine

def exec (i : Instr) (s : State) : Host.Outcome State Fault Refusal :=
  match i with
  | .nop _ _ _ => Sys2Proof.Machine.execNop s
  | .ignore _ value => Sys2Proof.Machine.execIgnore value s
  | .hdrSof value => Sys2Proof.Machine.execHdrSof value s
  | .hdrBad value => Sys2Proof.Machine.execHdrBad value s
  | .data value => Sys2Proof.Machine.execData value s
  | .cksum value => Sys2Proof.Machine.execCksum value s
  | .errByte value => Sys2Proof.Machine.execErrByte value s
  | .reset _ => Sys2Proof.Machine.execReset s
  | .cmdNone => Sys2Proof.Machine.execCmdNone s
  | .cmdToHeader => Sys2Proof.Machine.execCmdToHeader s
  | .cmdToError => Sys2Proof.Machine.execCmdToError s
  | .cmdRsvd => Sys2Proof.Machine.execCmdRsvd s

end Sys2Proof.Machine
end

