-- ==== Sys2Proof/WellFormed.lean ====
section
/-! DEFINITION. Which terms of Instr an encoding stands for. -/

namespace Sys2Proof

/-- A valid header has bit 7 set and a malformed one has it clear (30_encoding.md R46, R54); every other term
is some key's. -/
def Instr.wf : Instr → Bool
  | .nop _ _ _ => true
  | .ignore _ _ => true
  | .hdrSof v => v.getLsbD 7
  | .hdrBad v => !v.getLsbD 7
  | .data _ => true
  | .cksum _ => true
  | .errByte _ => true
  | .reset _ => true
  | .cmdNone => true
  | .cmdToHeader => true
  | .cmdToError => true
  | .cmdRsvd => true

end Sys2Proof
end

