-- ==== Sys2Proof/Decode.lean ====
section
/-! DEFINITION. The decoder from dispatch keys and from bytes, the encoder, and the opcode table as data. -/

namespace Sys2Proof

/-! ## State codes -/

/-- The FSM state codes (30_encoding.md R42). -/
def stateCode : FsmState → BitVec 2
  | .header => 0b00#2
  | .data => 0b01#2
  | .checksum => 0b10#2
  | .error => 0b11#2

/-- The state of a code: "All four codes are used" (30_encoding.md R42). -/
def stateOfCode (c : BitVec 2) : FsmState :=
  if c.getLsbD 1 then (if c.getLsbD 0 then .error else .checksum)
  else (if c.getLsbD 0 then .data else .header)

/-- A field put at its low bit in a word of `w` bits; a word is the `|||` of its fields. -/
def fieldAt {n : Nat} (w lo : Nat) (x : BitVec n) : BitVec w := x.setWidth w <<< lo

/-! ## Keys to instructions -/

/-- The BYTE rows (30_encoding.md R43, R54): `K[11:10]` is `st`, `K[9]` valid, `K[8]` is_data, `K[7:0]` value. -/
def decodeByteKey (k : BitVec 12) : Instr :=
  let st := stateOfCode (k.extractLsb' 10 2)
  let value := k.extractLsb' 0 8
  if !k.getLsbD 9 then .nop st (k.getLsbD 8) value
  else if !k.getLsbD 8 then .ignore st value
  else match st with
    | .header => if value.getLsbD 7 then .hdrSof value else .hdrBad value
    | .data => .data value
    | .checksum => .cksum value
    | .error => .errByte value

/-- The CMD rows (30_encoding.md R44, R45, R54): `C[2]` is `rst`, `C[1:0]` is `cmd`. -/
def decodeCmdKey (c : BitVec 3) : Instr :=
  if c.getLsbD 2 then .reset (c.extractLsb' 0 2)
  else if c.getLsbD 1 then (if c.getLsbD 0 then .cmdRsvd else .cmdToError)
  else (if c.getLsbD 0 then .cmdToHeader else .cmdNone)

/-- Every key selects an operation: the rows "cover every key value" (30_encoding.md R54). -/
def decodeKey : Key → Instr
  | .byte k => decodeByteKey k
  | .cmd c => decodeCmdKey c

/-! ## Instructions to keys -/

/-- `K = (st, valid, is_data, value)`, most significant first (30_encoding.md R43). -/
def byteKeyOf (st : FsmState) (valid isData : Bool) (value : Byte) : BitVec 12 :=
  fieldAt 12 10 (stateCode st) ||| fieldAt 12 9 (BitVec.ofBool valid) |||
    fieldAt 12 8 (BitVec.ofBool isData) ||| fieldAt 12 0 value

/-- The key of an instruction, from the `encoding` strings of spec/opcode_table.json. -/
def encodeKey : Instr → Key
  | .nop st d v => .byte (byteKeyOf st false d v)
  | .ignore st v => .byte (byteKeyOf st true false v)
  | .hdrSof v => .byte (byteKeyOf .header true true v)
  | .hdrBad v => .byte (byteKeyOf .header true true v)
  | .data v => .byte (byteKeyOf .data true true v)
  | .cksum v => .byte (byteKeyOf .checksum true true v)
  | .errByte v => .byte (byteKeyOf .error true true v)
  | .reset c => .cmd (fieldAt 3 2 1#1 ||| fieldAt 3 0 c)
  | .cmdNone => .cmd 0b000#3
  | .cmdToHeader => .cmd 0b001#3
  | .cmdToError => .cmd 0b010#3
  | .cmdRsvd => .cmd 0b011#3

/-- The format an instruction's row belongs to. -/
def formatOf : Instr → Format
  | .nop _ _ _ => .byte
  | .ignore _ _ => .byte
  | .hdrSof _ => .byte
  | .hdrBad _ => .byte
  | .data _ => .byte
  | .cksum _ => .byte
  | .errByte _ => .byte
  | .reset _ => .cmd
  | .cmdNone => .cmd
  | .cmdToHeader => .cmd
  | .cmdToError => .cmd
  | .cmdRsvd => .cmd

/-! ## Bytes

The hardware stores no key anywhere, so the byte form is the model's: a BYTE key is two bytes, the low one
first, its upper four bits zero; a CMD key is one byte, its upper five bits zero.
Mark: DESIGN CHOICE, safe (log 11). -/

/-- Why bytes are no instruction. -/
inductive DecodeRefusal where
  /-- Fewer bytes than the format's key takes. -/
  | truncated
  /-- A bit above the key's width is set. -/
  | paddingNotZero
deriving DecidableEq, Repr

/-- Decode one instruction of a given format from the front of a byte list and answer the rest. -/
def decodeBytes (f : Format) (bytes : List Byte) : Except DecodeRefusal (Instr × List Byte) :=
  match f, bytes with
  | .byte, lo :: hi :: rest =>
    if hi.extractLsb' 4 4 = 0#4 then
      .ok (decodeByteKey (fieldAt 12 8 hi ||| fieldAt 12 0 lo), rest)
    else .error .paddingNotZero
  | .byte, _ :: [] => .error .truncated
  | .byte, [] => .error .truncated
  | .cmd, b :: rest =>
    if b.extractLsb' 3 5 = 0#5 then .ok (decodeCmdKey (b.extractLsb' 0 3), rest)
    else .error .paddingNotZero
  | .cmd, [] => .error .truncated

/-- The bytes of a key. -/
def keyBytes : Key → List Byte
  | .byte k => [k.extractLsb' 0 8, (k.extractLsb' 8 4).setWidth 8]
  | .cmd c => [c.setWidth 8]

/-- The words of an instruction. -/
def encodeBytes (i : Instr) : List Byte := keyBytes (encodeKey i)

/-- The decoder over words numbered as spec/opcode_table.json numbers them. A row of 12 bits takes two bytes
and one of 3 bits takes one, so the number of bytes tells the format. -/
def decodeTableWord (nbits w : Nat) : Option Instr :=
  let answer :=
    if nbits ≤ 8 then (if w < 256 then decodeBytes .cmd [BitVec.ofNat 8 w] else .error .paddingNotZero)
    else if w < 65536 then decodeBytes .byte [BitVec.ofNat 8 w, BitVec.ofNat 8 (w / 256)]
    else .error .paddingNotZero
  match answer with
  | .ok (i, _) => some i
  | .error _ => none

/-! ## The opcode table as data -/

/-- One row of spec/opcode_table.json: its mnemonic, and `match` and `mask` over the key of its format. -/
structure OpRow where
  mnemonic : String
  pattern : Key
  mask : Key
deriving DecidableEq, Repr

/-- spec/opcode_table.json, row by row (30_encoding.md R54). -/
def opcodeTable : List OpRow :=
  [ ⟨"NOP", .byte 0x000#12, .byte 0x200#12⟩,
    ⟨"IGNORE", .byte 0x200#12, .byte 0x300#12⟩,
    ⟨"HDR_SOF", .byte 0x380#12, .byte 0xF80#12⟩,
    ⟨"HDR_BAD", .byte 0x300#12, .byte 0xF80#12⟩,
    ⟨"DATA", .byte 0x700#12, .byte 0xF00#12⟩,
    ⟨"CKSUM", .byte 0xB00#12, .byte 0xF00#12⟩,
    ⟨"ERR_BYTE", .byte 0xF00#12, .byte 0xF00#12⟩,
    ⟨"RESET", .cmd 0x4#3, .cmd 0x4#3⟩,
    ⟨"CMD_NONE", .cmd 0x0#3, .cmd 0x7#3⟩,
    ⟨"CMD_TO_HEADER", .cmd 0x1#3, .cmd 0x7#3⟩,
    ⟨"CMD_TO_ERROR", .cmd 0x2#3, .cmd 0x7#3⟩,
    ⟨"CMD_RSVD", .cmd 0x3#3, .cmd 0x7#3⟩ ]

/-- A row matches a key of its format when the masked bits equal its `match` bits. -/
def rowMatches (row : OpRow) (key : Key) : Bool :=
  match row.pattern, row.mask, key with
  | .byte p, .byte m, .byte k => k &&& m == p
  | .cmd p, .cmd m, .cmd c => c &&& m == p
  | .byte _, .byte _, .cmd _ => false
  | .byte _, .cmd _, _ => false
  | .cmd _, .cmd _, .byte _ => false
  | .cmd _, .byte _, _ => false

/-- The table's name of an instruction. -/
def mnemonicOf : Instr → String
  | .nop _ _ _ => "NOP"
  | .ignore _ _ => "IGNORE"
  | .hdrSof _ => "HDR_SOF"
  | .hdrBad _ => "HDR_BAD"
  | .data _ => "DATA"
  | .cksum _ => "CKSUM"
  | .errByte _ => "ERR_BYTE"
  | .reset _ => "RESET"
  | .cmdNone => "CMD_NONE"
  | .cmdToHeader => "CMD_TO_HEADER"
  | .cmdToError => "CMD_TO_ERROR"
  | .cmdRsvd => "CMD_RSVD"

end Sys2Proof
end

