-- ==== Sys2Proof/Machine/Interface.lean ====
section
/-! DEFINITION. The input ports: the packed input word, the two dispatch keys, taking the next input, and
placing a key where the next step takes its input. -/

namespace Sys2Proof.Machine

/-- The input word `IW` (30_encoding.md R41), most significant field first. -/
def inputWord (i : Input) : BitVec 13 :=
  fieldAt 13 12 (BitVec.ofBool i.rst) ||| fieldAt 13 10 i.cmd ||| fieldAt 13 9 (BitVec.ofBool i.valid) |||
    fieldAt 13 8 (BitVec.ofBool i.isData) ||| fieldAt 13 0 i.value

/-- The input tuple of an input word and the positions that travel beside it (30_encoding.md R41). -/
def inputOfWord (iw : BitVec 13) (start stop : Pos) : Input :=
  { rst := iw.getLsbD 12
    cmd := iw.extractLsb' 10 2
    valid := iw.getLsbD 9
    isData := iw.getLsbD 8
    value := iw.extractLsb' 0 8
    start := start
    stop := stop }

/-- The CMD key `C = IW[12:10]` (30_encoding.md R44). -/
def cmdKey (i : Input) : BitVec 3 := (inputWord i).extractLsb' 10 3

/-- The BYTE key `K`: `st`, then `IW[9:0]` (30_encoding.md R43). -/
def byteKey (st : FsmState) (i : Input) : BitVec 12 :=
  fieldAt 12 10 (stateCode st) ||| fieldAt 12 0 ((inputWord i).extractLsb' 0 10)

/-- The start of a step (40_fsm.md R60): the next input is on the ports, `events <- []`, `ack <- 0`. With no
input waiting the ports are idle (log 7). -/
def takeInput (s : State) : State :=
  match s.pending with
  | [] => { s with inp := Input.idle, cmdAck := false, events := [] }
  | i :: rest => { s with inp := i, pending := rest, cmdAck := false, events := [] }

/-- Make the next step run the operation of a table word (log 7, 11): the input that carries the key goes to
the front of `pending`, its positions 0. A CMD key comes with no input event. A BYTE key comes with no
command, and `st` takes the key's own state bits. -/
def placeTableWord (nbits w : Nat) (s : State) : State :=
  if nbits ≤ 8 then
    { s with pending := inputOfWord (fieldAt 13 10 (BitVec.ofNat 3 w)) 0 0 :: s.pending }
  else
    { s with
      st := stateOfCode ((BitVec.ofNat 12 w).extractLsb' 10 2)
      pending := inputOfWord (fieldAt 13 0 (BitVec.ofNat 10 w)) 0 0 :: s.pending }

/-- The output `st_out` (30_encoding.md R40, R42; 10_state.md R26): the code of `st` after the step. -/
def stOut (s : State) : BitVec 2 := stateCode s.st

end Sys2Proof.Machine
end

