-- ==== Sys2Proof/Machine/Sequence.lean ====
section
/-! DEFINITION. The composition of one step from its CMD row and its BYTE row (40_fsm.md R60). -/

namespace Sys2Proof.Machine

/-- The BYTE row of a step, dispatched on the state the command left (40_fsm.md R60; 30_encoding.md R43). -/
def runByteRow (s : State) : Result := exec (decodeKey (.byte (byteKey s.st s.inp))) s

/-- The CMD row of a step (30_encoding.md R44). -/
def runCmdRow (s : State) : Result := exec (decodeKey (.cmd (cmdKey s.inp))) s

/-- One step (40_fsm.md R60): `rst` first, and it discards the rest; then the command; then the byte. -/
def runStep (s : State) : Result :=
  let t := takeInput s
  if t.inp.rst then runCmdRow t else andThen (runCmdRow t) runByteRow

end Sys2Proof.Machine
end

