-- ==== Sys2Proof/Machine/Step.lean ====
section
/-! DEFINITION. The step function. -/

namespace Sys2Proof.Machine

/-- One step of the block (00_scope.md R8, R9; 40_fsm.md R60). -/
def step (s : State) : Host.Outcome State Fault Refusal := runStep s

/-- `s` with a table word placed where the next step takes its input (log 7). -/
def State.withFetchWord (s : State) (nbits w : Nat) : State := placeTableWord nbits w s

end Sys2Proof.Machine
end

