-- ==== Sys2Proof/Machine/Render.lean ====
section
/-! DEFINITION. The declared metadata and the texts of the output channels (30_encoding.md R49, R51, R52, R53).
The block emits codes and fields; rendering is the host's (00_scope.md R4), and no step calls these. -/

namespace Sys2Proof.Machine

/-- Names of the annotation categories (30_encoding.md R49). -/
def categoryName : Category → String
  | .data => "data"
  | .control => "control"
  | .error => "error"
  | .inlineError => "inline-error"

/-- Display row of each category (30_encoding.md R49). -/
def categoryRow : Category → String
  | .data => "Data"
  | .control => "Data"
  | .error => "Error"
  | .inlineError => "Data"

/-- Long text of each label (30_encoding.md R51), as the source spells it (log 13). -/
def labelLongText : Label → String
  | .header => "Header"
  | .destination => "Destination"
  | .source => "Source"
  | .data => "Data"
  | .checksum => "Checksum"
  | .sofMalformed => "Start of frame not ≥0x80"
  | .checksumInvalid => "Checksum invalid"
  | .error => "Error"

/-- Long, medium and short text of a label (30_encoding.md R50, R51). -/
def labelTexts (l : Label) : List String :=
  [labelLongText l, (Config.annText (labelCode l)).1, (Config.annText (labelCode l)).2]

/-- Names of the raw-binary tags (30_encoding.md R52). -/
def tagName : Nat → Option String
  | 0 => some "tester"
  | 1 => some "device"
  | 2 => some "dump"
  | _ => none

/-- `role_text` (30_encoding.md R53). -/
def roleText : Role → String
  | .tester => "tester"
  | .device => "device"

/-- `valid_text` (30_encoding.md R53). -/
def validText (valid : Bool) : String := if valid then "Valid" else "Invalid"

/-- The fields of a dump row's line, in order (30_encoding.md R53): the source comes before the destination. -/
def dumpRowFields (role : Role) (src dest : Byte) (payload : List Byte) (valid : Bool) : List String :=
  [roleText role, Config.idFmt src, Config.idFmt dest, " ".intercalate (payload.map Config.hexFmt),
    validText valid]

/-- The line of a dump event; the other events are no dump lines (30_encoding.md R53). -/
def dumpLine : Event → Option String
  | .ann _ _ _ _ _ => none
  | .record _ _ _ _ _ => none
  | .bin _ _ _ _ => none
  | .dumpHdr _ _ => some (Config.dumpHeaderText ++ Config.eol)
  | .dumpRow _ _ role src dest payload valid =>
    some ("\t".intercalate (dumpRowFields role src dest payload valid) ++ Config.eol)

end Sys2Proof.Machine
end

