-- ==== Sys2Proof/Machine/Stimulus.lean ====
section
/-! DEFINITION. The stimulus notation (30_encoding.md R57) as functions that build input tuples. -/

namespace Sys2Proof.Machine

/-- `BYTE v @a,b`. -/
def byteInput (v : Byte) (a b : Pos) : Input :=
  { Input.idle with valid := true, isData := true, value := v, start := a, stop := b }

/-- `NDATA v @a,b`. -/
def nonDataInput (v : Byte) (a b : Pos) : Input :=
  { Input.idle with valid := true, value := v, start := a, stop := b }

/-- `CMD HDR` alone, or before the event of an input as in `CMD HDR; BYTE v`. -/
def withToHeader (i : Input) : Input := { i with cmd := 0b01#2 }

/-- `CMD ERR`, alone or with an event. -/
def withToError (i : Input) : Input := { i with cmd := 0b10#2 }

/-- `CMD RSVD`, alone or with an event. -/
def withReserved (i : Input) : Input := { i with cmd := 0b11#2 }

/-- `RST`. -/
def resetInput : Input := { Input.idle with rst := true }

/-- The bytes of a frame before its checksum: the header declares the payload length (30_encoding.md R46). -/
def frameBody (dest src : Byte) (payload : List Byte) : List Byte :=
  (0x80#8 + BitVec.ofNat 8 payload.length) :: dest :: src :: payload

/-- The bytes of `FRAME d s p1 ... pn`, `n ≤ 127`. -/
def frameBytes (dest src : Byte) (payload : List Byte) : List Byte :=
  frameBody dest src payload ++ [BitVec.ofNat 8 (exactSum (frameBody dest src payload))]

/-- The bytes of `BADFRAME d s p1 ... pn`, `n ≤ 127`: the checksum plus one. -/
def badFrameBytes (dest src : Byte) (payload : List Byte) : List Byte :=
  frameBody dest src payload ++ [BitVec.ofNat 8 (exactSum (frameBody dest src payload)) + 1#8]

/-- `BYTE` steps for a byte list from step `k` on, at the default positions `10k` and `10k + 9`. -/
def byteInputsFrom : Nat → List Byte → List Input
  | _, [] => []
  | k, v :: vs => byteInput v (10 * k) (10 * k + 9) :: byteInputsFrom (k + 1) vs

end Sys2Proof.Machine
end

