-- ==== Sys2Proof/Safety.lean ====
section
/-! DEFINITION. The terms claims are stated in: the invariant of 10_state.md R27, what the outside sees, and
when two states can't be told apart. -/

namespace Sys2Proof.Safety

open Sys2Proof.Machine

/-- A frame is in progress: `st` is `Data` or `Checksum` (10_state.md R27 items 2 and 3). -/
def InFrame (s : State) : Prop := s.st = .data ∨ s.st = .checksum

/-- The invariants of 10_state.md R27, items 1 to 4 and 6, and the accumulator's canonical form. -/
structure Inv (s : State) : Prop where
  /-- The accumulator is in canonical form. -/
  bufWf : Memory.wf s.buf = true
  /-- Item 1. -/
  cntLeExpLen : s.cnt.toNat ≤ s.expLen.toNat
  /-- `exp_len` is "0, or 3 to 130" (R13). -/
  expLenLegal : s.expLen = 0#8 ∨ (3 ≤ s.expLen.toNat ∧ s.expLen.toNat ≤ 130)
  /-- Item 2. -/
  dataRange : s.st = .data → 1 ≤ s.cnt.toNat ∧ s.cnt.toNat < s.expLen.toNat
  /-- Item 3. -/
  checksumFull : s.st = .checksum → s.cnt = s.expLen ∧ 3 ≤ s.expLen.toNat
  /-- Item 4. -/
  sumIsBufferSum : s.sum = bufSum s s.cnt.toNat
  /-- Item 6 for the accumulator: every entry below `cnt` has been written since the last reset. -/
  entriesWritten : ∀ i, i < s.cnt.toNat → (cellGet s.buf i).isSome = true
  /-- Item 3 for `dest_id`: it is the frame's second byte. -/
  destIsSecond : 2 ≤ s.cnt.toNat → s.destId = bufRead s 1
  /-- Item 3 for `src_id`: it is the frame's third byte. -/
  srcIsThird : 3 ≤ s.cnt.toNat → s.srcId = bufRead s 2

/-- No frame was abandoned by a command since reset (10_state.md R27 item 5). -/
def NoAbandonedFrame (s : State) : Prop := s.st ≠ .error ∧ (s.st = .header → s.cnt = 0#8)

/-- What the outside sees of a step (10_state.md R26): `st_out`, `cmd_ack` and the events. -/
structure Outputs where
  stOut : BitVec 2
  cmdAck : Bool
  events : List Event
deriving DecidableEq, Repr

/-- The outputs of the step that led to `s`. -/
def outputs (s : State) : Outputs := { stOut := stOut s, cmdAck := s.cmdAck, events := s.events }

/-- Two states agree on all that can still reach an output (10_state.md R26, R27 items 5 and 6;
70_reset_and_hazards.md R113): the FSM state, the dump header flag, the parameter, the inputs to come, and,
inside a frame, what the current frame has written so far. -/
structure SameVisible (s t : State) : Prop where
  st : s.st = t.st
  dumpHdrDone : s.dumpHdrDone = t.dumpHdrDone
  errAutoExit : s.errAutoExit = t.errAutoExit
  pending : s.pending = t.pending
  expLen : InFrame s → s.expLen = t.expLen
  cnt : InFrame s → s.cnt = t.cnt
  sum : InFrame s → s.sum = t.sum
  entries : InFrame s → ∀ i, i < s.cnt.toNat → bufRead s i = bufRead t i
  destId : InFrame s → 2 ≤ s.cnt.toNat → s.destId = t.destId
  fstart : InFrame s → 2 ≤ s.cnt.toNat → s.fstart = t.fstart
  srcId : InFrame s → 3 ≤ s.cnt.toNat → s.srcId = t.srcId
  fend : s.st = .checksum → s.fend = t.fend

/-- Positions of the current frame fit `w` bits, for a width `w` of the parameter `POS_W` (00_scope.md R5). -/
def PositionsFit (w : Nat) (s : State) : Prop :=
  (InFrame s → 2 ≤ s.cnt.toNat → s.fstart < 2 ^ w) ∧ (s.st = .checksum → s.fend < 2 ^ w)

/-- Input tuples whose positions fit `w` bits. -/
def InputsFit (w : Nat) (inputs : List Input) : Prop :=
  ∀ i ∈ inputs, i.start < 2 ^ w ∧ i.stop < 2 ^ w

/-- The input the next step takes: the oldest waiting one, or the idle one. -/
def nextInput (s : State) : Input := s.pending.headD Input.idle

/-- The next step carries a data byte (30_encoding.md R41). -/
def carriesByte (i : Input) : Bool := i.valid && i.isData

end Sys2Proof.Safety
end

