-- ==== Sys2Proof/Certificates/Slice0/Obligations.lean ====
section
/-! DEFINITION. The statements for the provers. "log n" is notes/assumptions/n.md; "D n" is a decision of
92_eei_decisions.md, the spec's own choice. -/

open Sys2Proof Sys2Proof.Machine Sys2Proof.Safety

/-! ## Encoding -/

/-- Every well-formed instruction is the one its own bytes decode to, and the bytes after it are left over.
The keys are the spec's (30_encoding.md sections 3 and 6, D2, D4); their byte form is the model's (log 11). -/
def Obligations.DecodeOfEncodeIsTheInstruction : Prop :=
  ∀ (i : Instr) (rest : List Byte), i.wf = true →
    decodeBytes (formatOf i) (encodeBytes i ++ rest) = .ok (i, rest)

/-- Every key decodes to a well-formed instruction whose key it is (30_encoding.md section 6). -/
def Obligations.EncodeOfDecodeIsTheKey : Prop :=
  ∀ key : Key, (decodeKey key).wf = true ∧ encodeKey (decodeKey key) = key

/-- Of the twelve rows of the opcode table exactly one matches any key, and it is the row of the instruction
the key decodes to (30_encoding.md section 6, with D2 and D5). -/
def Obligations.ExactlyOneTableRowMatchesAKey : Prop :=
  ∀ key : Key,
    (opcodeTable.filter (fun row => rowMatches row key)).map OpRow.mnemonic = [mnemonicOf (decodeKey key)]

/-- Keys written out from the encoding strings of the opcode table decode to the rows they stand for. -/
def Obligations.TableWordsDecodeToTheirRows : Prop :=
  decodeTableWord 16 0b001110000010 = some (.hdrSof 0x82#8) ∧
  decodeTableWord 16 0b001100000101 = some (.hdrBad 0x05#8) ∧
  decodeTableWord 16 0b011110101010 = some (.data 0xAA#8) ∧
  decodeTableWord 16 0b101100010111 = some (.cksum 0x17#8) ∧
  decodeTableWord 16 0b111101010101 = some (.errByte 0x55#8) ∧
  decodeTableWord 8 0b110 = some (.reset 0b10#2) ∧
  decodeTableWord 8 0b001 = some .cmdToHeader

/-- Bytes that are no instruction are refused by name: too few, or a bit set above the key's width. The byte
form of keys is the model's choice (log 11). -/
def Obligations.ShortAndPaddedBytesAreRefused : Prop :=
  decodeBytes .byte [] = .error .truncated ∧
  decodeBytes .cmd [] = .error .truncated ∧
  (∀ b : Byte, decodeBytes .byte [b] = .error .truncated) ∧
  (∀ (lo hi : Byte) (rest : List Byte), 16 ≤ hi.toNat →
    decodeBytes .byte (lo :: hi :: rest) = .error .paddingNotZero) ∧
  (∀ (b : Byte) (rest : List Byte), 8 ≤ b.toNat → decodeBytes .cmd (b :: rest) = .error .paddingNotZero)

/-- The 13-bit input word holds every field of the control part (30_encoding.md section 2, D2): unpacking a
packed input gives it back, and packing an unpacked word gives the word back. -/
def Obligations.InputWordRoundTrips : Prop :=
  (∀ i : Input, inputOfWord (inputWord i) i.start i.stop = i) ∧
  (∀ (iw : BitVec 13) (a b : Pos), inputWord (inputOfWord iw a b) = iw)

/-! ## The step -/

/-- A step takes the oldest waiting input, clears the outputs, and runs the rows its keys decode to: the CMD
row alone when it is a reset, else the CMD row and then the BYTE row on the state the command left (40_fsm.md
section 1, D7). The input list is the model's own (log 7). -/
def Obligations.StepRunsTheDecodedRows : Prop :=
  ∀ s : State,
    takeInput s = { s with inp := nextInput s, pending := s.pending.tail, cmdAck := false, events := [] } ∧
    ((nextInput s).rst = true → step s = exec (decodeKey (.cmd (cmdKey (nextInput s)))) (takeInput s)) ∧
    ((nextInput s).rst = false →
      ∃ t, exec (decodeKey (.cmd (cmdKey (nextInput s)))) (takeInput s) = .next t ∧
        step s = exec (decodeKey (.byte (byteKey t.st (nextInput s)))) t)

/-- The CMD row of a step is the one its command code names (30_encoding.md section 3, D5, D6), and the BYTE
row is the handler of the FSM state (40_fsm.md section 1). -/
def Obligations.KeysSelectTheRowsOfTheStep : Prop :=
  ∀ (i : Input) (st : FsmState),
    decodeKey (.cmd (cmdKey i)) =
      (if i.rst then .reset i.cmd
       else if i.cmd = 0b00#2 then .cmdNone
       else if i.cmd = 0b01#2 then .cmdToHeader
       else if i.cmd = 0b10#2 then .cmdToError
       else .cmdRsvd) ∧
    decodeKey (.byte (byteKey st i)) =
      (if i.valid = false then .nop st i.isData i.value
       else if i.isData = false then .ignore st i.value
       else match st with
         | .header => if 0x80 ≤ i.value.toNat then .hdrSof i.value else .hdrBad i.value
         | .data => .data i.value
         | .checksum => .cksum i.value
         | .error => .errByte i.value)

/-- A placed table word is what the very next step takes: the key of its row, at the state its row names
(model's interface, log 7). -/
def Obligations.PlacedTableWordIsTheNextKey : Prop :=
  ∀ (s : State) (k : BitVec 12) (c : BitVec 3),
    byteKey (s.withFetchWord 16 k.toNat).st (nextInput (s.withFetchWord 16 k.toNat)) = k ∧
    cmdKey (nextInput (s.withFetchWord 16 k.toNat)) = 0b000#3 ∧
    cmdKey (nextInput (s.withFetchWord 8 c.toNat)) = c ∧
    (nextInput (s.withFetchWord 8 c.toNat)).valid = false ∧
    (s.withFetchWord 8 c.toNat).st = s.st

/-! ## The FSM and the CMD rows -/

/-- `try_transition`: into `Error` always, else by the allowed table, else rejected with no change (40_fsm.md
section 1). That a permitted self-loop (`Data` to `Data`, `Error` to `Error`) is taken and answers true is the
reading of decision D19 (log 15). -/
def Obligations.TryTransitionFollowsTheTable : Prop :=
  ∀ (target : FsmState) (s : State),
    ((target = .error ∨
        (s.st = .header ∧ target = .data) ∨
        (s.st = .data ∧ (target = .data ∨ target = .checksum)) ∨
        (s.st = .checksum ∧ target = .header) ∨
        (s.st = .error ∧ target = .header)) →
      tryTransition target s = ({ s with st := target }, true)) ∧
    (¬ (target = .error ∨
        (s.st = .header ∧ target = .data) ∨
        (s.st = .data ∧ (target = .data ∨ target = .checksum)) ∨
        (s.st = .checksum ∧ target = .header) ∨
        (s.st = .error ∧ target = .header)) →
      tryTransition target s = (s, false))

/-- `CMD_NONE` and the reserved code write `cmd_ack = 0` and nothing else (40_fsm.md section 2, D5, D6;
log 14). -/
def Obligations.CmdNoneAndReservedOnlyClearTheAck : Prop :=
  ∀ s : State,
    exec .cmdNone s = .next { s with cmdAck := false } ∧
    exec .cmdRsvd s = .next { s with cmdAck := false }

/-- `CMD_TO_HEADER` by state: rejected in `Header` and `Data`, taken from `Checksum` and `Error`; no frame
state is written (40_fsm.md section 2, D5). -/
def Obligations.CmdToHeaderOutcomeByState : Prop :=
  ∀ s : State,
    exec .cmdToHeader s = .next
      (match s.st with
        | .header => { s with cmdAck := false }
        | .data => { s with cmdAck := false }
        | .checksum => { s with st := .header, cmdAck := true }
        | .error => { s with st := .header, cmdAck := true })

/-- `CMD_TO_ERROR` enters `Error` from any state, `Error` included, with `cmd_ack = 1`, and saves or writes
nothing else (40_fsm.md section 2, 60_exceptions.md section 2; D5, D19, log 15). -/
def Obligations.CmdToErrorAlwaysEntersError : Prop :=
  ∀ s : State, exec .cmdToError s = .next { s with st := .error, cmdAck := true }

/-- `RESET` writes the reset values the spec gives and no output event, and keeps the inputs and the parameter
(40_fsm.md section 2, D8, D9). What it leaves unspecified is not constrained here (log 4). -/
def Obligations.ResetWritesItsConstants : Prop :=
  ∀ (c : BitVec 2) (s : State), ∃ t, exec (.reset c) s = .next t ∧
    t.st = .header ∧ t.expLen = 0#8 ∧ t.cnt = 0#8 ∧ t.sum = 0#8 ∧ t.csValid = false ∧
    t.dumpHdrDone = false ∧ t.cmdAck = false ∧ t.events = s.events ∧ t.inp = s.inp ∧
    t.pending = s.pending ∧ t.errAutoExit = s.errAutoExit

/-- The reset state holds the values the spec gives. The values of `dest_id`, `src_id`, `fstart` and `fend`
are the model's own (log 3) and not claimed. -/
def Obligations.ResetStateHoldsTheSpecValues : Prop :=
  State.reset.st = .header ∧ State.reset.expLen = 0#8 ∧ State.reset.cnt = 0#8 ∧ State.reset.sum = 0#8 ∧
  State.reset.csValid = false ∧ State.reset.dumpHdrDone = false ∧ stOut State.reset = 0b00#2 ∧
  State.reset.cmdAck = false ∧ State.reset.events = []

/-- `NOP` writes no state and emits nothing (40_fsm.md section 3, D2). -/
def Obligations.NopChangesNothing : Prop :=
  ∀ (st : FsmState) (d : Bool) (v : Byte) (s : State), exec (.nop st d v) s = .next s

/-- `IGNORE` writes no state and emits nothing, in every state (44_error_and_nondata.md; what counts as a
non-data event is D29). -/
def Obligations.IgnoreChangesNothing : Prop :=
  ∀ (st : FsmState) (v : Byte) (s : State), exec (.ignore st v) s = .next s

/-! ## The header handler -/

/-- The length decoder on every valid header (41_header.md R70): `exp_len = h[6:0] + 3 = (h - 0x80) + 3`, from 3
to 130, and `HDR_SOF` puts it in `exp_len`. -/
def Obligations.LengthDecoderGivesThePayloadPlusThree : Prop :=
  ∀ (h : Byte) (s : State), 0x80 ≤ h.toNat →
    decodeLength h = (h.extractLsb' 0 7).setWidth 8 + 3#8 ∧
    (decodeLength h).toNat = h.toNat - 0x80 + 3 ∧
    3 ≤ (decodeLength h).toNat ∧ (decodeLength h).toNat ≤ 130 ∧
    ∃ t, exec (.hdrSof h) s = .next t ∧ t.expLen = decodeLength h

/-- `HDR_SOF` on a valid header in `Header`: the whole next state (41_header.md, 42_data.md; the clearing of
`cnt` and `sum` is D10, the running sum D11, the category D15). -/
def Obligations.HdrSofStartsAFrame : Prop :=
  ∀ (h : Byte) (s : State), (Instr.hdrSof h).wf = true → s.st = .header →
    exec (.hdrSof h) s = .next
      { s with
        st := .data
        expLen := decodeLength h
        cnt := 1#8
        sum := h
        buf := cellSet s.buf 0 h
        events := s.events ++ [.ann s.inp.start s.inp.stop .control .header h] }

/-- `HDR_BAD` emits one inline-error annotation over the byte's own span and takes no further action
(41_header.md R71). -/
def Obligations.HdrBadOnlyReportsAnInlineError : Prop :=
  ∀ (v : Byte) (s : State),
    exec (.hdrBad v) s = .next
      { s with events := s.events ++ [.ann s.inp.start s.inp.stop .inlineError .sofMalformed v] }

/-! ## The data handler -/

/-- `DATA` in `Data`: the whole next state. The byte goes to entry `cnt` and into the running sum (D11); its
position, `cnt` after the append, decides the register it is recorded in and the annotation (D15); the end
position is taken and the FSM moves to `Checksum` exactly when the count reaches `exp_len` (D12). -/
def Obligations.DataAppendsClassifiesAndChecksTheEnd : Prop :=
  ∀ (v : Byte) (s : State), s.st = .data → s.cnt.toNat < 130 →
    exec (.data v) s = .next
      { s with
        buf := cellSet s.buf s.cnt.toNat v
        cnt := s.cnt + 1#8
        sum := s.sum + v
        destId := if s.cnt.toNat + 1 = 2 then v else s.destId
        fstart := if s.cnt.toNat + 1 = 2 then s.inp.start else s.fstart
        srcId := if s.cnt.toNat + 1 = 3 then v else s.srcId
        fend := if s.cnt.toNat + 1 = s.expLen.toNat then s.inp.stop else s.fend
        st := if s.cnt.toNat + 1 = s.expLen.toNat then .checksum else .data
        events := s.events ++
          [if s.cnt.toNat + 1 = 1 then .ann s.inp.start s.inp.stop .control .header v
           else if s.cnt.toNat + 1 = 2 then .ann s.inp.start s.inp.stop .control .destination v
           else if s.cnt.toNat + 1 = 3 then .ann s.inp.start s.inp.stop .control .source v
           else .ann s.inp.start s.inp.stop .data .data v] }

/-- Where the storing rows store: `DATA` writes entry `cnt` and `HDR_SOF` entry 0; every other entry reads as
before (20_memory.md section 1). -/
def Obligations.AppendsStoreOneEntryOnly : Prop :=
  ∀ (v : Byte) (s t : State),
    (exec (.data v) s = .next t →
      bufRead t s.cnt.toNat = v ∧ ∀ a, a ≠ s.cnt.toNat → bufRead t a = bufRead s a) ∧
    (exec (.hdrSof v) s = .next t →
      bufRead t 0 = v ∧ ∀ a, a ≠ 0 → bufRead t a = bufRead s a)

/-- Reading an entry gives the byte last written to it, whatever the accumulator holds, and a write keeps the
canonical form. -/
def Obligations.AccumulatorReadsBackWhatWasWritten : Prop :=
  ∀ (s : State) (i : Nat) (v : Byte),
    bufRead (bufWrite i v s) i = v ∧
    (∀ j, j ≠ i → bufRead (bufWrite i v s) j = bufRead s j) ∧
    (Memory.wf s.buf = true → i < 130 → Memory.wf (bufWrite i v s).buf = true)

/-- An access to an entry that does not exist stops: an append at index 130 or more, a frame slice past entry
129. The stop is the model's choice, never met in a state of the invariant (log 9). -/
def Obligations.MissingEntriesStopTheAccess : Prop :=
  ∀ (v : Byte) (s : State),
    (130 ≤ s.cnt.toNat → exec (.data v) s = .fault .bufIndexOutOfRange) ∧
    (130 < s.cnt.toNat → exec (.cksum v) s = .fault .bufIndexOutOfRange)

/-- The rows that touch no frame register and store nothing: `NOP`, `IGNORE`, `HDR_BAD`, `ERR_BYTE` and the
commands. Every entry and every register but `st` and the outputs is unchanged (41_header.md,
44_error_and_nondata.md, 40_fsm.md). -/
def Obligations.NonFrameRowsKeepTheFrame : Prop :=
  ∀ (i : Instr) (s t : State),
    ((∃ st d v, i = .nop st d v) ∨ (∃ st v, i = .ignore st v) ∨ (∃ v, i = .hdrBad v) ∨
      (∃ v, i = .errByte v) ∨ i = .cmdNone ∨ i = .cmdToHeader ∨ i = .cmdToError ∨ i = .cmdRsvd) →
    exec i s = .next t →
    (∀ a, bufRead t a = bufRead s a) ∧ t.expLen = s.expLen ∧ t.cnt = s.cnt ∧ t.sum = s.sum ∧
    t.destId = s.destId ∧ t.srcId = s.srcId ∧ t.fstart = s.fstart ∧ t.fend = s.fend ∧
    t.csValid = s.csValid ∧ t.dumpHdrDone = s.dumpHdrDone ∧ t.inp = s.inp ∧ t.pending = s.pending ∧
    t.errAutoExit = s.errAutoExit

/-! ## The checksum handler -/

/-- `CKSUM` in `Checksum`: the whole next state, and the events it adds on each channel, in the order the
handler gives them there (43_checksum.md; the error annotation's and the dump lines' spans are D16, what a
completed frame keeps is D22). -/
def Obligations.CksumEmitsTheFrameAndReturnsToHeader : Prop :=
  ∀ (c : Byte) (s : State), s.st = .checksum → s.cnt.toNat ≤ 130 →
    ∃ added : List Event,
      exec (.cksum c) s = .next
        { s with
          st := .header
          cnt := 0#8
          sum := 0#8
          csValid := decide (s.sum = c)
          dumpHdrDone := true
          events := s.events ++ added } ∧
      onChannel .annotation added =
        .ann s.inp.start s.inp.stop .control .checksum c ::
          (if s.sum = c then [] else [.ann s.inp.start s.inp.stop .inlineError .checksumInvalid c]) ∧
      onChannel .structured added =
        (if s.sum = c then [.record s.fstart s.fend s.destId s.srcId (frameSlice s 3)] else []) ∧
      onChannel .rawBinary added =
        [.bin s.fstart s.inp.stop (roleOfSource s.srcId) (frameSlice s 0 ++ [c])] ++
        (if s.dumpHdrDone then [] else [.dumpHdr s.fstart s.inp.stop]) ++
        [.dumpRow s.fstart s.inp.stop (roleOfSource s.srcId) s.srcId s.destId (frameSlice s 3)
          (decide (s.sum = c))]

/-- `CKSUM` stores nothing: every entry reads as before, and it writes none of `exp_len`, the identifiers and
the positions (43_checksum.md, D22). -/
def Obligations.CksumKeepsTheAccumulator : Prop :=
  ∀ (c : Byte) (s t : State), exec (.cksum c) s = .next t →
    (∀ a, bufRead t a = bufRead s a) ∧ t.expLen = s.expLen ∧ t.destId = s.destId ∧ t.srcId = s.srcId ∧
    t.fstart = s.fstart ∧ t.fend = s.fend ∧ t.cmdAck = s.cmdAck ∧ t.inp = s.inp ∧ t.pending = s.pending ∧
    t.errAutoExit = s.errAutoExit

/-- Validity (43_checksum.md R82): in `Checksum`, `cs_valid` is set iff the exact sum of the bytes from the
header up to the one before the checksum, modulo 256, equals the checksum byte; and that is the comparison
with `sum`. -/
def Obligations.FrameIsValidIffItsSumMatches : Prop :=
  ∀ (c : Byte) (s : State), Inv s → s.st = .checksum →
    ∃ t, exec (.cksum c) s = .next t ∧
      (t.csValid = true ↔
        exactSum ((List.range s.expLen.toNat).map (bufRead s)) % 256 = c.toNat) ∧
      (t.csValid = true ↔ s.sum = c)

/-- Classification (43_checksum.md R83): the raw frame's tag and the dump row's role are tester iff the source
ID is in `0xF0..0xFD`, valid frame or not. -/
def Obligations.TesterIffSourceInTheRange : Prop :=
  ∀ (c : Byte) (s : State), s.cnt.toNat ≤ 130 →
    ∃ t, exec (.cksum c) s = .next t ∧
      ∃ role, (role = Role.tester ↔ 0xF0 ≤ s.srcId.toNat ∧ s.srcId.toNat ≤ 0xFD) ∧
        (∀ a b bs, eventTag (.bin a b role bs) = some (if role = Role.tester then 0 else 1)) ∧
        (∃ a b bs, .bin a b role bs ∈ t.events) ∧ (∃ a b x y p v, .dumpRow a b role x y p v ∈ t.events) ∧
        (∀ a b r bs, .bin a b r bs ∈ t.events → .bin a b r bs ∈ s.events ∨ r = role) ∧
        (∀ a b r x y p v, .dumpRow a b r x y p v ∈ t.events →
          .dumpRow a b r x y p v ∈ s.events ∨ r = role)

/-- The structured record (43_checksum.md R84): one for a valid frame, none for an invalid one; payload only,
over `fstart..fend`; its identifiers are the frame's second and third bytes. -/
def Obligations.RecordForValidFramesOnly : Prop :=
  ∀ (c : Byte) (s : State), Inv s → s.st = .checksum →
    ∃ t, exec (.cksum c) s = .next t ∧
      onChannel .structured t.events = onChannel .structured s.events ++
        (if t.csValid then
          [.record s.fstart s.fend (bufRead s 1) (bufRead s 2)
            ((List.range' 3 (s.cnt.toNat - 3)).map (bufRead s))]
        else []) ∧
      3 + (s.cnt.toNat - 3) = s.expLen.toNat ∧ s.cnt.toNat - 3 ≤ 127

/-- The raw frame record (43_checksum.md R86): every frame, valid or not, gives one with all its bytes, the
checksum byte last, from `fstart` to the end of the checksum byte. -/
def Obligations.RawRecordForEveryFrame : Prop :=
  ∀ (c : Byte) (s : State), Inv s → s.st = .checksum →
    ∃ t bytes role, exec (.cksum c) s = .next t ∧
      bytes = (List.range s.expLen.toNat).map (bufRead s) ++ [c] ∧
      bytes.length = s.expLen.toNat + 1 ∧ 4 ≤ bytes.length ∧ bytes.length ≤ 131 ∧
      (role = Role.tester ↔ 0xF0 ≤ s.srcId.toNat ∧ s.srcId.toNat ≤ 0xFD) ∧
      t.events.filter (fun e => decide (eventTag e = some 0 ∨ eventTag e = some 1)) =
        s.events.filter (fun e => decide (eventTag e = some 0 ∨ eventTag e = some 1)) ++
          [.bin s.fstart s.inp.stop role bytes]

/-- The raw-binary channel of a checksum step: the complete frame, valid or not, checksum byte included, then
the one-time dump header, then the dump row. The spans of the dump lines are D16, the order within the channel
that of 43_checksum.md section 1. -/
def Obligations.RawBinaryChannelOfACompletedFrame : Prop :=
  ∀ (c : Byte) (s : State), s.cnt.toNat ≤ 130 →
    ∃ t, exec (.cksum c) s = .next t ∧
      onChannel .rawBinary t.events = onChannel .rawBinary s.events ++
        [.bin s.fstart s.inp.stop (roleOfSource s.srcId)
          ((List.range s.cnt.toNat).map (bufRead s) ++ [c])] ++
        (if s.dumpHdrDone then [] else [.dumpHdr s.fstart s.inp.stop]) ++
        [.dumpRow s.fstart s.inp.stop (roleOfSource s.srcId) s.srcId s.destId
          ((List.range' 3 (s.cnt.toNat - 3)).map (bufRead s)) t.csValid]

/-- The dump header at most once between resets: after it, no step without reset emits it, and the flag stays
set (43_checksum.md section 1). -/
def Obligations.DumpHeaderOnlyOnceUntilReset : Prop :=
  ∀ s t : State, s.dumpHdrDone = true → (nextInput s).rst = false → step s = .next t →
    t.dumpHdrDone = true ∧ ∀ a b, .dumpHdr a b ∉ t.events

/-- Single-bit sensitivity: flip one bit of the checksum byte, or of one entry from the destination on, in a
valid frame, and the frame is invalid (43_checksum.md section 1, a consequence the spec derives). -/
def Obligations.SingleBitFlipInvalidatesAFrame : Prop :=
  ∀ (s s' : State) (c : Byte) (i k : Nat), Inv s → Inv s' → s.st = .checksum → s'.st = .checksum →
    s'.cnt = s.cnt → k < 8 → 1 ≤ i → i < s.cnt.toNat →
    bufRead s' i = bufRead s i ^^^ BitVec.twoPow 8 k →
    (∀ j, j < s.cnt.toNat → j ≠ i → bufRead s' j = bufRead s j) →
    ∀ t, exec (.cksum c) s = .next t → t.csValid = true →
      (∃ t', exec (.cksum c) s' = .next t' ∧ t'.csValid = false) ∧
      (∃ t', exec (.cksum (c ^^^ BitVec.twoPow 8 k)) s = .next t' ∧ t'.csValid = false)

/-! ## The Error state -/

/-- `ERR_BYTE` in `Error`: one error annotation, and the state is left exactly when `ERR_AUTO_EXIT` says so;
for both values of the parameter (44_error_and_nondata.md, D15, D18, log 2). -/
def Obligations.ErrByteReportsAndStaysUnlessAutoExit : Prop :=
  ∀ (v : Byte) (s : State), s.st = .error →
    exec (.errByte v) s = .next
      { s with
        st := if s.errAutoExit then .header else .error
        events := s.events ++ [.ann s.inp.start s.inp.stop .error .error v] }

/-- No handler enters `Error`: a step that goes there carries `CMD_TO_ERROR` (44_error_and_nondata.md, a
consequence the spec derives; D5). -/
def Obligations.ErrorIsEnteredByCommandOnly : Prop :=
  ∀ s t : State, s.st ≠ .error → step s = .next t → t.st = .error →
    (nextInput s).rst = false ∧ (nextInput s).cmd = 0b10#2 ∧ t.cmdAck = true

/-- `Error` is left by `CMD_TO_HEADER`, by reset, or by a data byte when `ERR_AUTO_EXIT` (60_exceptions.md
section 2, D18). -/
def Obligations.ErrorIsLeftByItsThreeExitsOnly : Prop :=
  ∀ s t : State, s.st = .error → step s = .next t → t.st ≠ .error →
    (nextInput s).rst = true ∨ (nextInput s).cmd = 0b01#2 ∨
    (s.errAutoExit = true ∧ carriesByte (nextInput s) = true)

/-! ## Whole-machine statements -/

/-- A reset step: the reset values, `st_out = Header`, `cmd_ack = 0`, no events, whatever else the step
carries and whatever state it meets (70_reset_and_hazards.md section 1, D8, D9). -/
def Obligations.ResetStepDiscardsTheRestOfItsInput : Prop :=
  ∀ s : State, (nextInput s).rst = true → ∃ t, step s = .next t ∧
    outputs t = { stOut := 0b00#2, cmdAck := false, events := [] } ∧
    t.st = .header ∧ t.expLen = 0#8 ∧ t.cnt = 0#8 ∧ t.sum = 0#8 ∧ t.csValid = false ∧
    t.dumpHdrDone = false ∧ t.pending = s.pending.tail

/-- A command acts before the byte of its own step (70_reset_and_hazards.md section 3, D7): `CMD ERR; BYTE v`
handles the byte in `Error` from any state, and `CMD HDR; BYTE v` from `Error` handles it in `Header`. -/
def Obligations.CommandActsBeforeTheByte : Prop :=
  ∀ (s : State) (v : Byte) (a b : Pos) (rest : List Input),
    (s.pending = withToError (byteInput v a b) :: rest →
      ∃ t, step s = .next t ∧ t.cmdAck = true ∧ t.events = [.ann a b .error .error v] ∧
        t.st = (if s.errAutoExit then .header else .error)) ∧
    (s.pending = withToHeader (byteInput v a b) :: rest → s.st = .error →
      ∃ t, step s = .next t ∧ t.cmdAck = true ∧
        t.events = (if 0x80 ≤ v.toNat then [.ann a b .control .header v]
          else [.ann a b .inlineError .sofMalformed v]) ∧
        t.st = (if 0x80 ≤ v.toNat then .data else .header))

/-- A step with no input, or with an event that is no data byte and no command, changes nothing but what
stands on the ports (40_fsm.md section 3; 60_exceptions.md section 3; 70_reset_and_hazards.md section 3). -/
def Obligations.IdleStepKeepsTheState : Prop :=
  ∀ s : State, (nextInput s).rst = false → (nextInput s).cmd = 0b00#2 →
    carriesByte (nextInput s) = false →
    step s = .next { s with inp := nextInput s, pending := s.pending.tail, cmdAck := false, events := [] }

/-- A step emits at most five events; none unless it carries a data byte and no reset; exactly one unless the
byte is a checksum byte (30_encoding.md section 6, a consequence the spec derives). -/
def Obligations.EventsPerStepAreAtMostFive : Prop :=
  ∀ s t : State, step s = .next t →
    t.events.length ≤ 5 ∧
    (((nextInput s).rst = true ∨ carriesByte (nextInput s) = false) → t.events = []) ∧
    ((nextInput s).rst = false → carriesByte (nextInput s) = true → s.st ≠ .checksum →
      t.events.length = 1) ∧
    ((nextInput s).rst = false → carriesByte (nextInput s) = true → s.st = .checksum →
      ((nextInput s).cmd = 0b00#2 ∨ (nextInput s).cmd = 0b11#2) →
      t.events.length = if s.dumpHdrDone then 4 else 5)

/-- Abandoned frames emit nothing: an event outside the annotation channel comes only from a data byte handled
in `Checksum`, with no reset and no command that leaves it (70_reset_and_hazards.md section 3, a consequence
the spec derives; D5, D6, D7). -/
def Obligations.FrameEventsComeFromChecksumBytesOnly : Prop :=
  ∀ (s t : State) (e : Event), step s = .next t → e ∈ t.events → eventChannel e ≠ .annotation →
    s.st = .checksum ∧ carriesByte (nextInput s) = true ∧ (nextInput s).rst = false ∧
    ((nextInput s).cmd = 0b00#2 ∨ (nextInput s).cmd = 0b11#2)

/-- The invariants of 10_state.md section 5 hold after every step that starts in them, whatever its input. -/
def Obligations.EveryStepKeepsTheInvariant : Prop :=
  ∀ s t : State, Inv s → step s = .next t → Inv t

/-- The reset state satisfies the invariants, and nothing is listed in its accumulator (the form of the
accumulator is the model's, log 5). -/
def Obligations.ResetStateSatisfiesTheInvariant : Prop :=
  Inv State.reset ∧ Memory.wf State.reset.buf = true ∧ State.reset.buf = []

/-- No error is fatal (60_exceptions.md section 1): from a state of the invariant every step answers a next
state, on any input. -/
def Obligations.NoErrorIsFatal : Prop :=
  ∀ s : State, Inv s → ∃ t, step s = .next t

/-- Without external commands `Header` always has an empty accumulator: a step whose input carries no
`CMD_TO_HEADER` and no `CMD_TO_ERROR` abandons no frame (10_state.md section 5 item 5). -/
def Obligations.HeaderIsEmptyWithoutCommands : Prop :=
  ∀ s t : State, Inv s → NoAbandonedFrame s →
    ((nextInput s).rst = true ∨ ((nextInput s).cmd ≠ 0b01#2 ∧ (nextInput s).cmd ≠ 0b10#2)) →
    step s = .next t → NoAbandonedFrame t

/-- Nothing hidden reaches an output: two states that agree on what the current frame has written so far, and
on the FSM state, the dump header flag and the inputs to come, give the same outputs and agree again. Stale
bytes, unspecified reset contents and `cs_valid` are never read (10_state.md sections 4 and 5;
70_reset_and_hazards.md section 3). -/
def Obligations.HiddenStateNeverReachesAnOutput : Prop :=
  ∀ s t s' : State, Inv s → Inv t → SameVisible s t → step s = .next s' →
    ∃ t', step t = .next t' ∧ outputs s' = outputs t' ∧ SameVisible s' t'

/-- Reset idempotence: after a reset step from ANY state, the outputs of every later step are those of the
machine fresh from its reset state, on the same inputs (70_reset_and_hazards.md section 1). -/
def Obligations.ResetMakesTheBlockFresh : Prop :=
  ∀ (s : State) (k : Nat), (nextInput s).rst = true →
    ∃ t u, Host.Core.run core (k + 1) s = .next t ∧
      Host.Core.run core k
        { State.reset with pending := s.pending.tail, errAutoExit := s.errAutoExit } = .next u ∧
      outputs t = outputs u

/-- One data byte counts one position, and nothing else does: in `Data`, unless the step resets or commands
`Error`, the count and the FSM state move exactly on a data byte, and the FSM enters `Checksum` exactly when
the count reaches `exp_len` (41_header.md, 42_data.md section on resynchronisation). -/
def Obligations.OnlyDataBytesAdvanceAFrame : Prop :=
  ∀ s : State, Inv s → s.st = .data → (nextInput s).rst = false → (nextInput s).cmd ≠ 0b10#2 →
    ∃ t, step s = .next t ∧ t.expLen = s.expLen ∧
      (carriesByte (nextInput s) = false → t.cnt = s.cnt ∧ t.st = .data) ∧
      (carriesByte (nextInput s) = true →
        t.cnt.toNat = s.cnt.toNat + 1 ∧
        (t.st = .checksum ↔ s.cnt.toNat + 1 = s.expLen.toNat) ∧ (t.st = .checksum ∨ t.st = .data))

/-- The frame-length law over a run: after a header byte `h` in `Header`, with any inputs between that neither
reset nor command `Error`, the FSM is still in `Data` while fewer than `exp_len` data bytes have come, the
header counted first, and enters `Checksum` on exactly the `exp_len`-th (41_header.md, a consequence the spec
derives). -/
def Obligations.FrameReachesChecksumOnItsLastByte : Prop :=
  ∀ (s : State) (h : Byte) (a b : Pos) (between rest : List Input),
    s.st = .header → 0x80 ≤ h.toNat →
    (∀ i ∈ between, i.rst = false ∧ i.cmd ≠ 0b10#2) →
    s.pending = byteInput h a b :: (between ++ rest) →
    1 + between.countP carriesByte < h.toNat - 0x80 + 3 →
    ∃ t, Host.Core.run core (1 + between.length) s = .next t ∧
      t.st = .data ∧ t.cnt.toNat = 1 + between.countP carriesByte ∧
      t.expLen.toNat = h.toNat - 0x80 + 3 ∧ t.pending = rest ∧
      (∀ v x y rest', rest = byteInput v x y :: rest' →
        ∃ u, step t = .next u ∧
          (u.st = .checksum ↔ 2 + between.countP carriesByte = h.toNat - 0x80 + 3))

/-- A whole frame, from `Header` to `Header`: header `h`, destination, source, the declared number of payload
bytes and a checksum byte, at any positions, from ANY state in `Header`. The last step emits, on each channel,
exactly the frame-level events of the frame: the record iff the sum matches, the raw frame, the dump header if
it is still due, and the dump row (43_checksum.md; order within a channel only, D17). -/
def Obligations.WholeFrameEmitsItsRecords : Prop :=
  ∀ (s : State) (h dest src c : Byte) (payload : List Byte) (pos : Nat → Pos × Pos) (rest : List Input),
    s.st = .header → 0x80 ≤ h.toNat → payload.length = h.toNat - 0x80 →
    s.pending =
      ((h :: dest :: src :: payload ++ [c]).zipIdx.map
        (fun p => byteInput p.1 (pos p.2).1 (pos p.2).2)) ++ rest →
    ∃ (t : State) (n : Nat) (valid : Bool) (role : Role),
      Host.Core.run core (payload.length + 4) s = .next t ∧
      n = payload.length + 3 ∧
      (valid = true ↔ exactSum (h :: dest :: src :: payload) % 256 = c.toNat) ∧
      (role = .tester ↔ 0xF0 ≤ src.toNat ∧ src.toNat ≤ 0xFD) ∧
      t.st = .header ∧ t.cnt = 0#8 ∧ t.sum = 0#8 ∧ t.csValid = valid ∧ t.dumpHdrDone = true ∧
      t.pending = rest ∧
      onChannel .annotation t.events =
        .ann (pos n).1 (pos n).2 .control .checksum c ::
          (if valid then [] else [.ann (pos n).1 (pos n).2 .inlineError .checksumInvalid c]) ∧
      onChannel .structured t.events =
        (if valid then [.record (pos 1).1 (pos (n - 1)).2 dest src payload] else []) ∧
      onChannel .rawBinary t.events =
        [.bin (pos 1).1 (pos n).2 role (h :: dest :: src :: payload ++ [c])] ++
        (if s.dumpHdrDone then [] else [.dumpHdr (pos 1).1 (pos n).2]) ++
        [.dumpRow (pos 1).1 (pos n).2 role src dest payload valid]

/-- `FRAME` always yields a valid frame and `BADFRAME` an invalid one, with every payload of 0 to 127 bytes
(30_encoding.md section 7, a consequence the spec derives; D25). -/
def Obligations.FrameIsValidAndBadFrameIsNot : Prop :=
  ∀ (s : State) (dest src : Byte) (payload : List Byte) (k : Nat), s.st = .header →
    payload.length ≤ 127 →
    (s.pending = byteInputsFrom k (frameBytes dest src payload) →
      ∃ t, Host.Core.run core (payload.length + 4) s = .next t ∧ t.csValid = true ∧ t.st = .header) ∧
    (s.pending = byteInputsFrom k (badFrameBytes dest src payload) →
      ∃ t, Host.Core.run core (payload.length + 4) s = .next t ∧ t.csValid = false ∧ t.st = .header)

/-- Positions are only copied: for every width `w` of position markers, if the inputs and the current frame's
positions fit `w` bits, so do the span of every event and the positions held after the step. Positions as
numbers are the model's choice (log 1). -/
def Obligations.PositionsStayWithinTheirWidth : Prop :=
  ∀ (w : Nat) (s t : State), Inv s → PositionsFit w s → InputsFit w s.pending → step s = .next t →
    PositionsFit w t ∧ InputsFit w t.pending ∧
    ∀ e ∈ t.events, eventStart e < 2 ^ w ∧ eventStop e < 2 ^ w

/-- The parameter `ERR_AUTO_EXIT` is never written, and each step takes exactly one waiting input (the fields
are the model's own, log 2 and 7). -/
def Obligations.ParameterAndInputsAreOnlyRead : Prop :=
  ∀ s t : State, step s = .next t → t.errAutoExit = s.errAutoExit ∧ t.pending = s.pending.tail

/-- A dump row's line: role, source ID, destination ID, hex payload joined by single spaces, and the validity
word, separated by tabs (30_encoding.md section 5; the spellings are open parameters, D24, log 13). -/
def Obligations.DumpRowLineHoldsItsFieldsInOrder : Prop :=
  ∀ (a b : Pos) (role : Role) (src dest : Byte) (payload : List Byte) (valid : Bool),
    dumpLine (.dumpRow a b role src dest payload valid) = some
      (roleText role ++ "\t" ++ Config.idFmt src ++ "\t" ++ Config.idFmt dest ++ "\t" ++
        " ".intercalate (payload.map Config.hexFmt) ++ "\t" ++ (if valid then "Valid" else "Invalid") ++
        Config.eol)

/-- The declared metadata (30_encoding.md R49, R52): the four categories with their names and display rows,
and the tags of the raw-binary channel with their names and what carries them. -/
def Obligations.CategoriesAndTagsAreTheDeclaredOnes : Prop :=
  [Category.data, .control, .error, .inlineError].map
      (fun c => ((categoryCode c).toNat, categoryName c, categoryRow c)) =
    [(0, "data", "Data"), (1, "control", "Data"), (2, "error", "Error"), (3, "inline-error", "Data")] ∧
  [0, 1, 2].map tagName = [some "tester", some "device", some "dump"] ∧
  (∀ a b src bs, eventTag (.bin a b (roleOfSource src) bs) =
    some (if 0xF0 ≤ src.toNat ∧ src.toNat ≤ 0xFD then 0 else 1)) ∧
  (∀ a b, eventTag (.dumpHdr a b) = some 2) ∧
  (∀ a b role src dest payload valid, eventTag (.dumpRow a b role src dest payload valid) = some 2) ∧
  (∀ e, eventChannel e ≠ .rawBinary → eventTag e = none)
end

