-- ==== Sys2Proof/Laws/State.lean ====
section
/-! SUPPORT. One lemma per field per named update of State. -/

namespace Sys2Proof.Machine

variable (s : State)

/-! ## emit -/

@[simp] theorem emit_st (e : Event) : (emit e s).st = s.st := rfl
@[simp] theorem emit_expLen (e : Event) : (emit e s).expLen = s.expLen := rfl
@[simp] theorem emit_cnt (e : Event) : (emit e s).cnt = s.cnt := rfl
@[simp] theorem emit_buf (e : Event) : (emit e s).buf = s.buf := rfl
@[simp] theorem emit_destId (e : Event) : (emit e s).destId = s.destId := rfl
@[simp] theorem emit_srcId (e : Event) : (emit e s).srcId = s.srcId := rfl
@[simp] theorem emit_sum (e : Event) : (emit e s).sum = s.sum := rfl
@[simp] theorem emit_fstart (e : Event) : (emit e s).fstart = s.fstart := rfl
@[simp] theorem emit_fend (e : Event) : (emit e s).fend = s.fend := rfl
@[simp] theorem emit_csValid (e : Event) : (emit e s).csValid = s.csValid := rfl
@[simp] theorem emit_dumpHdrDone (e : Event) : (emit e s).dumpHdrDone = s.dumpHdrDone := rfl
@[simp] theorem emit_cmdAck (e : Event) : (emit e s).cmdAck = s.cmdAck := rfl
@[simp] theorem emit_events (e : Event) : (emit e s).events = s.events ++ [e] := rfl
@[simp] theorem emit_inp (e : Event) : (emit e s).inp = s.inp := rfl
@[simp] theorem emit_pending (e : Event) : (emit e s).pending = s.pending := rfl
@[simp] theorem emit_errAutoExit (e : Event) : (emit e s).errAutoExit = s.errAutoExit := rfl
@[simp] theorem emit_resets (e : Event) : (emit e s).resets = s.resets := rfl

/-! ## emitAnn -/

@[simp] theorem emitAnn_st (l : Label) (v : Byte) : (emitAnn l v s).st = s.st := rfl
@[simp] theorem emitAnn_expLen (l : Label) (v : Byte) : (emitAnn l v s).expLen = s.expLen := rfl
@[simp] theorem emitAnn_cnt (l : Label) (v : Byte) : (emitAnn l v s).cnt = s.cnt := rfl
@[simp] theorem emitAnn_buf (l : Label) (v : Byte) : (emitAnn l v s).buf = s.buf := rfl
@[simp] theorem emitAnn_destId (l : Label) (v : Byte) : (emitAnn l v s).destId = s.destId := rfl
@[simp] theorem emitAnn_srcId (l : Label) (v : Byte) : (emitAnn l v s).srcId = s.srcId := rfl
@[simp] theorem emitAnn_sum (l : Label) (v : Byte) : (emitAnn l v s).sum = s.sum := rfl
@[simp] theorem emitAnn_fstart (l : Label) (v : Byte) : (emitAnn l v s).fstart = s.fstart := rfl
@[simp] theorem emitAnn_fend (l : Label) (v : Byte) : (emitAnn l v s).fend = s.fend := rfl
@[simp] theorem emitAnn_csValid (l : Label) (v : Byte) : (emitAnn l v s).csValid = s.csValid := rfl
@[simp] theorem emitAnn_dumpHdrDone (l : Label) (v : Byte) : (emitAnn l v s).dumpHdrDone = s.dumpHdrDone := rfl
@[simp] theorem emitAnn_cmdAck (l : Label) (v : Byte) : (emitAnn l v s).cmdAck = s.cmdAck := rfl
@[simp] theorem emitAnn_events (l : Label) (v : Byte) : (emitAnn l v s).events = s.events ++ [.ann s.inp.start s.inp.stop (labelCategory l) l v] := rfl
@[simp] theorem emitAnn_inp (l : Label) (v : Byte) : (emitAnn l v s).inp = s.inp := rfl
@[simp] theorem emitAnn_pending (l : Label) (v : Byte) : (emitAnn l v s).pending = s.pending := rfl
@[simp] theorem emitAnn_errAutoExit (l : Label) (v : Byte) : (emitAnn l v s).errAutoExit = s.errAutoExit := rfl
@[simp] theorem emitAnn_resets (l : Label) (v : Byte) : (emitAnn l v s).resets = s.resets := rfl

/-! ## bufWrite -/

@[simp] theorem bufWrite_st (i : Nat) (v : Byte) : (bufWrite i v s).st = s.st := rfl
@[simp] theorem bufWrite_expLen (i : Nat) (v : Byte) : (bufWrite i v s).expLen = s.expLen := rfl
@[simp] theorem bufWrite_cnt (i : Nat) (v : Byte) : (bufWrite i v s).cnt = s.cnt := rfl
@[simp] theorem bufWrite_buf (i : Nat) (v : Byte) : (bufWrite i v s).buf = cellSet s.buf i v := rfl
@[simp] theorem bufWrite_destId (i : Nat) (v : Byte) : (bufWrite i v s).destId = s.destId := rfl
@[simp] theorem bufWrite_srcId (i : Nat) (v : Byte) : (bufWrite i v s).srcId = s.srcId := rfl
@[simp] theorem bufWrite_sum (i : Nat) (v : Byte) : (bufWrite i v s).sum = s.sum := rfl
@[simp] theorem bufWrite_fstart (i : Nat) (v : Byte) : (bufWrite i v s).fstart = s.fstart := rfl
@[simp] theorem bufWrite_fend (i : Nat) (v : Byte) : (bufWrite i v s).fend = s.fend := rfl
@[simp] theorem bufWrite_csValid (i : Nat) (v : Byte) : (bufWrite i v s).csValid = s.csValid := rfl
@[simp] theorem bufWrite_dumpHdrDone (i : Nat) (v : Byte) : (bufWrite i v s).dumpHdrDone = s.dumpHdrDone := rfl
@[simp] theorem bufWrite_cmdAck (i : Nat) (v : Byte) : (bufWrite i v s).cmdAck = s.cmdAck := rfl
@[simp] theorem bufWrite_events (i : Nat) (v : Byte) : (bufWrite i v s).events = s.events := rfl
@[simp] theorem bufWrite_inp (i : Nat) (v : Byte) : (bufWrite i v s).inp = s.inp := rfl
@[simp] theorem bufWrite_pending (i : Nat) (v : Byte) : (bufWrite i v s).pending = s.pending := rfl
@[simp] theorem bufWrite_errAutoExit (i : Nat) (v : Byte) : (bufWrite i v s).errAutoExit = s.errAutoExit := rfl
@[simp] theorem bufWrite_resets (i : Nat) (v : Byte) : (bufWrite i v s).resets = s.resets := rfl

/-! ## forgetUnspecified -/

@[simp] theorem forgetUnspecified_st : (forgetUnspecified s).st = s.st := rfl
@[simp] theorem forgetUnspecified_expLen : (forgetUnspecified s).expLen = s.expLen := rfl
@[simp] theorem forgetUnspecified_cnt : (forgetUnspecified s).cnt = s.cnt := rfl
@[simp] theorem forgetUnspecified_buf : (forgetUnspecified s).buf = [] := rfl
@[simp] theorem forgetUnspecified_destId : (forgetUnspecified s).destId = Config.unspecifiedDestId s.resets := rfl
@[simp] theorem forgetUnspecified_srcId : (forgetUnspecified s).srcId = Config.unspecifiedSrcId s.resets := rfl
@[simp] theorem forgetUnspecified_sum : (forgetUnspecified s).sum = s.sum := rfl
@[simp] theorem forgetUnspecified_fstart : (forgetUnspecified s).fstart = Config.unspecifiedFstart s.resets := rfl
@[simp] theorem forgetUnspecified_fend : (forgetUnspecified s).fend = Config.unspecifiedFend s.resets := rfl
@[simp] theorem forgetUnspecified_csValid : (forgetUnspecified s).csValid = s.csValid := rfl
@[simp] theorem forgetUnspecified_dumpHdrDone : (forgetUnspecified s).dumpHdrDone = s.dumpHdrDone := rfl
@[simp] theorem forgetUnspecified_cmdAck : (forgetUnspecified s).cmdAck = s.cmdAck := rfl
@[simp] theorem forgetUnspecified_events : (forgetUnspecified s).events = s.events := rfl
@[simp] theorem forgetUnspecified_inp : (forgetUnspecified s).inp = s.inp := rfl
@[simp] theorem forgetUnspecified_pending : (forgetUnspecified s).pending = s.pending := rfl
@[simp] theorem forgetUnspecified_errAutoExit : (forgetUnspecified s).errAutoExit = s.errAutoExit := rfl
@[simp] theorem forgetUnspecified_resets : (forgetUnspecified s).resets = s.resets + 1 := rfl

/-! ## takeInput: the oldest input, or the idle one -/

@[simp] theorem takeInput_st : (takeInput s).st = s.st := by
  unfold takeInput; split <;> rfl
@[simp] theorem takeInput_expLen : (takeInput s).expLen = s.expLen := by
  unfold takeInput; split <;> rfl
@[simp] theorem takeInput_cnt : (takeInput s).cnt = s.cnt := by
  unfold takeInput; split <;> rfl
@[simp] theorem takeInput_buf : (takeInput s).buf = s.buf := by
  unfold takeInput; split <;> rfl
@[simp] theorem takeInput_destId : (takeInput s).destId = s.destId := by
  unfold takeInput; split <;> rfl
@[simp] theorem takeInput_srcId : (takeInput s).srcId = s.srcId := by
  unfold takeInput; split <;> rfl
@[simp] theorem takeInput_sum : (takeInput s).sum = s.sum := by
  unfold takeInput; split <;> rfl
@[simp] theorem takeInput_fstart : (takeInput s).fstart = s.fstart := by
  unfold takeInput; split <;> rfl
@[simp] theorem takeInput_fend : (takeInput s).fend = s.fend := by
  unfold takeInput; split <;> rfl
@[simp] theorem takeInput_csValid : (takeInput s).csValid = s.csValid := by
  unfold takeInput; split <;> rfl
@[simp] theorem takeInput_dumpHdrDone : (takeInput s).dumpHdrDone = s.dumpHdrDone := by
  unfold takeInput; split <;> rfl
@[simp] theorem takeInput_cmdAck : (takeInput s).cmdAck = false := by
  unfold takeInput; split <;> rfl
@[simp] theorem takeInput_events : (takeInput s).events = [] := by
  unfold takeInput; split <;> rfl
@[simp] theorem takeInput_inp : (takeInput s).inp = s.pending.headD Input.idle := by
  unfold takeInput; split <;> simp [*]
@[simp] theorem takeInput_pending : (takeInput s).pending = s.pending.tail := by
  unfold takeInput; split <;> simp [*]
@[simp] theorem takeInput_errAutoExit : (takeInput s).errAutoExit = s.errAutoExit := by
  unfold takeInput; split <;> rfl
@[simp] theorem takeInput_resets : (takeInput s).resets = s.resets := by
  unfold takeInput; split <;> rfl

/-! ## raiseError: an annotation or the acknowledge bit, nothing else (60_exceptions.md R96) -/

@[simp] theorem raiseError_st (e : ErrorCode) (v : Byte) : (raiseError e v s).st = s.st := by
  cases e <;> rfl
@[simp] theorem raiseError_expLen (e : ErrorCode) (v : Byte) : (raiseError e v s).expLen = s.expLen := by
  cases e <;> rfl
@[simp] theorem raiseError_cnt (e : ErrorCode) (v : Byte) : (raiseError e v s).cnt = s.cnt := by
  cases e <;> rfl
@[simp] theorem raiseError_buf (e : ErrorCode) (v : Byte) : (raiseError e v s).buf = s.buf := by
  cases e <;> rfl
@[simp] theorem raiseError_destId (e : ErrorCode) (v : Byte) : (raiseError e v s).destId = s.destId := by
  cases e <;> rfl
@[simp] theorem raiseError_srcId (e : ErrorCode) (v : Byte) : (raiseError e v s).srcId = s.srcId := by
  cases e <;> rfl
@[simp] theorem raiseError_sum (e : ErrorCode) (v : Byte) : (raiseError e v s).sum = s.sum := by
  cases e <;> rfl
@[simp] theorem raiseError_fstart (e : ErrorCode) (v : Byte) : (raiseError e v s).fstart = s.fstart := by
  cases e <;> rfl
@[simp] theorem raiseError_fend (e : ErrorCode) (v : Byte) : (raiseError e v s).fend = s.fend := by
  cases e <;> rfl
@[simp] theorem raiseError_csValid (e : ErrorCode) (v : Byte) : (raiseError e v s).csValid = s.csValid := by
  cases e <;> rfl
@[simp] theorem raiseError_dumpHdrDone (e : ErrorCode) (v : Byte) : (raiseError e v s).dumpHdrDone = s.dumpHdrDone := by
  cases e <;> rfl
@[simp] theorem raiseError_inp (e : ErrorCode) (v : Byte) : (raiseError e v s).inp = s.inp := by
  cases e <;> rfl
@[simp] theorem raiseError_pending (e : ErrorCode) (v : Byte) : (raiseError e v s).pending = s.pending := by
  cases e <;> rfl
@[simp] theorem raiseError_errAutoExit (e : ErrorCode) (v : Byte) : (raiseError e v s).errAutoExit = s.errAutoExit := by
  cases e <;> rfl
@[simp] theorem raiseError_resets (e : ErrorCode) (v : Byte) : (raiseError e v s).resets = s.resets := by
  cases e <;> rfl

@[simp] theorem raiseError_malformedHeader (v : Byte) :
    raiseError .malformedHeader v s = emitAnn .sofMalformed v s := rfl
@[simp] theorem raiseError_checksumMismatch (v : Byte) :
    raiseError .checksumMismatch v s = emitAnn .checksumInvalid v s := rfl
@[simp] theorem raiseError_illegalTransition (v : Byte) :
    raiseError .illegalTransition v s = { s with cmdAck := false } := rfl
@[simp] theorem raiseError_nonDataEvent (v : Byte) : raiseError .nonDataEvent v s = s := rfl
@[simp] theorem raiseError_errorStateByte (v : Byte) :
    raiseError .errorStateByte v s = emitAnn .error v s := rfl

/-! ## goTo: only `st` can change (40_fsm.md R58) -/

@[simp] theorem goTo_expLen (T : FsmState) : (goTo T s).expLen = s.expLen := by
  unfold goTo tryTransition; (repeat' split) <;> rfl
@[simp] theorem goTo_cnt (T : FsmState) : (goTo T s).cnt = s.cnt := by
  unfold goTo tryTransition; (repeat' split) <;> rfl
@[simp] theorem goTo_buf (T : FsmState) : (goTo T s).buf = s.buf := by
  unfold goTo tryTransition; (repeat' split) <;> rfl
@[simp] theorem goTo_destId (T : FsmState) : (goTo T s).destId = s.destId := by
  unfold goTo tryTransition; (repeat' split) <;> rfl
@[simp] theorem goTo_srcId (T : FsmState) : (goTo T s).srcId = s.srcId := by
  unfold goTo tryTransition; (repeat' split) <;> rfl
@[simp] theorem goTo_sum (T : FsmState) : (goTo T s).sum = s.sum := by
  unfold goTo tryTransition; (repeat' split) <;> rfl
@[simp] theorem goTo_fstart (T : FsmState) : (goTo T s).fstart = s.fstart := by
  unfold goTo tryTransition; (repeat' split) <;> rfl
@[simp] theorem goTo_fend (T : FsmState) : (goTo T s).fend = s.fend := by
  unfold goTo tryTransition; (repeat' split) <;> rfl
@[simp] theorem goTo_csValid (T : FsmState) : (goTo T s).csValid = s.csValid := by
  unfold goTo tryTransition; (repeat' split) <;> rfl
@[simp] theorem goTo_dumpHdrDone (T : FsmState) : (goTo T s).dumpHdrDone = s.dumpHdrDone := by
  unfold goTo tryTransition; (repeat' split) <;> rfl
@[simp] theorem goTo_cmdAck (T : FsmState) : (goTo T s).cmdAck = s.cmdAck := by
  unfold goTo tryTransition; (repeat' split) <;> rfl
@[simp] theorem goTo_events (T : FsmState) : (goTo T s).events = s.events := by
  unfold goTo tryTransition; (repeat' split) <;> rfl
@[simp] theorem goTo_inp (T : FsmState) : (goTo T s).inp = s.inp := by
  unfold goTo tryTransition; (repeat' split) <;> rfl
@[simp] theorem goTo_pending (T : FsmState) : (goTo T s).pending = s.pending := by
  unfold goTo tryTransition; (repeat' split) <;> rfl
@[simp] theorem goTo_errAutoExit (T : FsmState) : (goTo T s).errAutoExit = s.errAutoExit := by
  unfold goTo tryTransition; (repeat' split) <;> rfl
@[simp] theorem goTo_resets (T : FsmState) : (goTo T s).resets = s.resets := by
  unfold goTo tryTransition; (repeat' split) <;> rfl

/-! ## commandTransition: only `st` and `cmd_ack` can change (40_fsm.md R64, R65) -/

@[simp] theorem commandTransition_expLen (T : FsmState) : (commandTransition T s).expLen = s.expLen := by
  unfold commandTransition tryTransition; (repeat' split) <;> rfl
@[simp] theorem commandTransition_cnt (T : FsmState) : (commandTransition T s).cnt = s.cnt := by
  unfold commandTransition tryTransition; (repeat' split) <;> rfl
@[simp] theorem commandTransition_buf (T : FsmState) : (commandTransition T s).buf = s.buf := by
  unfold commandTransition tryTransition; (repeat' split) <;> rfl
@[simp] theorem commandTransition_destId (T : FsmState) : (commandTransition T s).destId = s.destId := by
  unfold commandTransition tryTransition; (repeat' split) <;> rfl
@[simp] theorem commandTransition_srcId (T : FsmState) : (commandTransition T s).srcId = s.srcId := by
  unfold commandTransition tryTransition; (repeat' split) <;> rfl
@[simp] theorem commandTransition_sum (T : FsmState) : (commandTransition T s).sum = s.sum := by
  unfold commandTransition tryTransition; (repeat' split) <;> rfl
@[simp] theorem commandTransition_fstart (T : FsmState) : (commandTransition T s).fstart = s.fstart := by
  unfold commandTransition tryTransition; (repeat' split) <;> rfl
@[simp] theorem commandTransition_fend (T : FsmState) : (commandTransition T s).fend = s.fend := by
  unfold commandTransition tryTransition; (repeat' split) <;> rfl
@[simp] theorem commandTransition_csValid (T : FsmState) : (commandTransition T s).csValid = s.csValid := by
  unfold commandTransition tryTransition; (repeat' split) <;> rfl
@[simp] theorem commandTransition_dumpHdrDone (T : FsmState) : (commandTransition T s).dumpHdrDone = s.dumpHdrDone := by
  unfold commandTransition tryTransition; (repeat' split) <;> rfl
@[simp] theorem commandTransition_events (T : FsmState) : (commandTransition T s).events = s.events := by
  unfold commandTransition tryTransition; (repeat' split) <;> rfl
@[simp] theorem commandTransition_inp (T : FsmState) : (commandTransition T s).inp = s.inp := by
  unfold commandTransition tryTransition; (repeat' split) <;> rfl
@[simp] theorem commandTransition_pending (T : FsmState) : (commandTransition T s).pending = s.pending := by
  unfold commandTransition tryTransition; (repeat' split) <;> rfl
@[simp] theorem commandTransition_errAutoExit (T : FsmState) : (commandTransition T s).errAutoExit = s.errAutoExit := by
  unfold commandTransition tryTransition; (repeat' split) <;> rfl
@[simp] theorem commandTransition_resets (T : FsmState) : (commandTransition T s).resets = s.resets := by
  unfold commandTransition tryTransition; (repeat' split) <;> rfl

end Sys2Proof.Machine
end

