-- ==== Sys2Proof/Laws/Accumulator.lean ====
section
/-! SUPPORT. Reads, writes and the canonical form of the accumulator; frame slices and sums. -/

namespace Sys2Proof.Machine

/-! ## Cells -/

@[simp] theorem cellGet_nil (i : Nat) : cellGet [] i = none := rfl

theorem cellGet_cellSet_self (cells : List Host.Cell) (i : Nat) (v : Byte) :
    cellGet (cellSet cells i v) i = some v := by
  induction cells with
  | nil => simp [cellSet, cellGet]
  | cons c cells ih =>
    obtain ⟨x, b⟩ := c
    unfold cellSet
    split
    · simp [cellGet]
    · split
      · simp [cellGet]
      · rename_i h; simp [cellGet, Ne.symm h, ih]

theorem cellGet_cellSet_other (cells : List Host.Cell) {i j : Nat} (v : Byte) (h : j ≠ i) :
    cellGet (cellSet cells i v) j = cellGet cells j := by
  induction cells with
  | nil => simp [cellSet, cellGet, Ne.symm h]
  | cons c cells ih =>
    obtain ⟨x, b⟩ := c
    unfold cellSet
    split
    · simp [cellGet, Ne.symm h]
    · split
      · subst_vars; simp [cellGet, Ne.symm h]
      · simp [cellGet, ih]

theorem cellGet_cellSet (cells : List Host.Cell) (i j : Nat) (v : Byte) :
    cellGet (cellSet cells i v) j = if j = i then some v else cellGet cells j := by
  split
  · subst_vars; exact cellGet_cellSet_self ..
  · exact cellGet_cellSet_other _ _ ‹_›

/-! ## The canonical form -/

theorem cellsRiseFrom_mono {low low' : Nat} {cells : List Host.Cell} (hl : low' ≤ low)
    (h : cellsRiseFrom low cells = true) : cellsRiseFrom low' cells = true := by
  cases cells with
  | nil => rfl
  | cons c cells =>
    simp only [cellsRiseFrom, Bool.and_eq_true, decide_eq_true_eq] at h ⊢
    exact ⟨⟨hl.trans h.1.1, h.1.2⟩, h.2⟩

theorem cellsRiseFrom_cellSet {low i : Nat} {cells : List Host.Cell} (v : Byte) (hl : low ≤ i)
    (hi : i < Config.bufDepth) (h : cellsRiseFrom low cells = true) :
    cellsRiseFrom low (cellSet cells i v) = true := by
  induction cells generalizing low with
  | nil => simp [cellSet, cellsRiseFrom, hl, hi]
  | cons c cells ih =>
    obtain ⟨x, b⟩ := c
    simp only [cellsRiseFrom, Bool.and_eq_true, decide_eq_true_eq] at h
    obtain ⟨⟨hx, hd⟩, hr⟩ := h
    unfold cellSet
    split
    · rename_i hix
      simp only [cellsRiseFrom, Bool.and_eq_true, decide_eq_true_eq]
      exact ⟨⟨hl, hi⟩, ⟨hix, hd⟩, hr⟩
    · split
      · subst_vars
        simp only [cellsRiseFrom, Bool.and_eq_true, decide_eq_true_eq]
        exact ⟨⟨hl, hi⟩, hr⟩
      · simp only [cellsRiseFrom, Bool.and_eq_true, decide_eq_true_eq]
        exact ⟨⟨hx, hd⟩, ih (by omega) hr⟩

/-- Every write to an entry that exists keeps the canonical form. -/
theorem wf_cellSet {cells : List Host.Cell} {i : Nat} (v : Byte) (hi : i < Config.bufDepth)
    (h : Memory.wf cells = true) : Memory.wf (cellSet cells i v) = true :=
  cellsRiseFrom_cellSet v (Nat.zero_le _) hi h

theorem wf_bufWrite {s : State} {i : Nat} (v : Byte) (hi : i < Config.bufDepth)
    (h : Memory.wf s.buf = true) : Memory.wf (bufWrite i v s).buf = true :=
  wf_cellSet v hi h

theorem wf_nil : Memory.wf [] = true := rfl

theorem wf_forgetUnspecified (s : State) : Memory.wf (forgetUnspecified s).buf = true := rfl

/-! ## Reads -/

/-- A read sees the accumulator and the count of resets only. -/
theorem bufRead_congr {s t : State} (hb : t.buf = s.buf) (hr : t.resets = s.resets) (i : Nat) :
    bufRead t i = bufRead s i := by
  simp [bufRead, unlistedEntry, hb, hr]

theorem bufRead_of_buf_eq_cellSet {s t : State} {i : Nat} {v : Byte} (hb : t.buf = cellSet s.buf i v)
    (hr : t.resets = s.resets) (j : Nat) : bufRead t j = if j = i then v else bufRead s j := by
  simp only [bufRead, unlistedEntry, hb, hr, cellGet_cellSet]
  split <;> rfl

theorem bufRead_bufWrite (s : State) (i j : Nat) (v : Byte) :
    bufRead (bufWrite i v s) j = if j = i then v else bufRead s j :=
  bufRead_of_buf_eq_cellSet (s := s) (t := bufWrite i v s) rfl rfl j

/-! ## Slices and sums -/

theorem frameSlice_congr {s t : State} (hc : t.cnt = s.cnt)
    (h : ∀ i, i < s.cnt.toNat → bufRead t i = bufRead s i) (a : Nat) : frameSlice t a = frameSlice s a := by
  unfold frameSlice
  rw [hc]
  refine List.map_congr_left fun i hi => h i ?_
  simp [List.mem_range'] at hi
  omega

@[simp] theorem frameSlice_length (s : State) (a : Nat) :
    (frameSlice s a).length = s.cnt.toNat - a := by
  simp [frameSlice]

theorem exactSum_append (xs ys : List Byte) : exactSum (xs ++ ys) = exactSum xs + exactSum ys := by
  induction xs with
  | nil => simp [exactSum]
  | cons x xs ih => simp [exactSum, ih, Nat.add_assoc]

theorem bufSum_zero (s : State) : bufSum s 0 = 0#8 := rfl

theorem bufSum_succ (s : State) (n : Nat) : bufSum s (n + 1) = bufSum s n + bufRead s n := by
  apply BitVec.eq_of_toNat_eq
  simp [bufSum, List.range_succ, exactSum_append, exactSum, BitVec.toNat_add]

theorem bufSum_congr {s t : State} {n : Nat} (h : ∀ i, i < n → bufRead t i = bufRead s i) :
    bufSum t n = bufSum s n := by
  unfold bufSum
  rw [List.map_congr_left fun i hi => h i (List.mem_range.mp hi)]

end Sys2Proof.Machine
end

