-- ==== Sys2Proof/Laws/Ops.lean ====
section
/-! SUPPORT. What the shared operations and the handlers can do, each said once. -/

namespace Sys2Proof.Machine

/-! ## Sequencing -/

@[simp] theorem andThen_next (s : State) (k : State → Result) : andThen (.next s) k = k s := rfl
@[simp] theorem andThen_fault (f : Fault) (k : State → Result) : andThen (.fault f) k = .fault f := rfl

theorem andThen_eq_next {r : Result} {k : State → Result} {t : State} (h : andThen r k = .next t) :
    ∃ s, r = .next s ∧ k s = .next t := by
  cases r with
  | next s => exact ⟨s, rfl, h⟩
  | fault f => simp [andThen] at h
  | refused f => simp [andThen] at h

/-! ## The FSM -/

theorem tryTransition_error (s : State) : tryTransition .error s = ({ s with st := .error }, true) := rfl

theorem tryTransition_of_allowed {T : FsmState} {s : State} (h : allowed s.st T = true) :
    tryTransition T s = ({ s with st := T }, true) := by
  unfold tryTransition
  split
  · subst_vars; rfl
  · rfl

theorem tryTransition_of_not_allowed {T : FsmState} {s : State} (hT : T ≠ .error)
    (h : allowed s.st T = false) : tryTransition T s = (s, false) := by
  simp [tryTransition, hT, h]

/-- A handler's own transition is taken (40_fsm.md R62). -/
theorem goTo_of_allowed {T : FsmState} {s : State} (h : allowed s.st T = true) :
    goTo T s = { s with st := T } := by
  simp [goTo, tryTransition_of_allowed h]

/-- A transition leaves `st` alone or moves it to the target. -/
theorem goTo_st (T : FsmState) (s : State) : (goTo T s).st = T ∨ goTo T s = s := by
  unfold goTo tryTransition
  split
  · subst_vars; exact .inl rfl
  · split
    · exact .inl rfl
    · exact .inr rfl

theorem commandTransition_header (s : State) :
    commandTransition .header s =
      if s.st = .header ∨ s.st = .data then { s with cmdAck := false }
      else { s with st := .header, cmdAck := true } := by
  cases h : s.st <;> simp [commandTransition, tryTransition, allowed, h]

theorem commandTransition_error (s : State) :
    commandTransition .error s = { s with st := .error, cmdAck := true } := rfl

/-! ## Position classes -/

theorem positionClass_succ {cnt : Byte} (h : cnt.toNat < 130) :
    positionClass (cnt + 1#8) =
      if cnt.toNat = 0 then .header
      else if cnt.toNat = 1 then .destination
      else if cnt.toNat = 2 then .source
      else .payload := by
  have e : ∀ k : Byte, 1 ≤ k.toNat → (cnt + 1#8 = k ↔ cnt.toNat = k.toNat - 1) := by
    intro k hk
    rw [← BitVec.toNat_inj, BitVec.toNat_add]
    have := k.isLt
    simp
    omega
  simp only [positionClass, e 1#8 (by decide), e 2#8 (by decide), e 3#8 (by decide)]
  rfl

theorem cnt_succ_toNat {cnt : Byte} (h : cnt.toNat < 130) : (cnt + 1#8).toNat = cnt.toNat + 1 := by
  rw [BitVec.toNat_add]
  simp
  omega

theorem cnt_succ_eq_iff {cnt len : Byte} (h : cnt.toNat < 130) :
    cnt + 1#8 = len ↔ cnt.toNat + 1 = len.toNat := by
  rw [← BitVec.toNat_inj, cnt_succ_toNat h]

/-! ## The append -/

theorem appendByte_of_lt {v : Byte} {s : State} (h : s.cnt.toNat < 130) :
    appendByte v s =
      .next { s with buf := cellSet s.buf s.cnt.toNat v, cnt := s.cnt + 1#8, sum := s.sum + v } := by
  simp [appendByte, Config.bufDepth, h, bufWrite, addToSum]

theorem appendByte_of_ge {v : Byte} {s : State} (h : 130 ≤ s.cnt.toNat) :
    appendByte v s = .fault .bufIndexOutOfRange := by
  simp [appendByte, Config.bufDepth, Nat.not_lt.mpr h]

/-- A data action that answers a next state had room for its byte. -/
theorem dataAction_next_lt {v : Byte} {s t : State} (h : dataAction v s = .next t) : s.cnt.toNat < 130 := by
  by_contra hc
  simp [dataAction, appendByte_of_ge (Nat.not_lt.mp hc)] at h

theorem dataAction_of_lt {v : Byte} {s : State} (h : s.cnt.toNat < 130) :
    dataAction v s = .next (endOfData (classifyByte v
      { s with buf := cellSet s.buf s.cnt.toNat v, cnt := s.cnt + 1#8, sum := s.sum + v })) := by
  simp [dataAction, appendByte_of_lt h]

/-! ## Classification and the end of data: what they write -/

/-- The annotation of the byte at the position `cnt`. -/
theorem classifyByte_events (v : Byte) (s : State) :
    (classifyByte v s).events = s.events ++
      [match positionClass s.cnt with
        | .header => .ann s.inp.start s.inp.stop .control .header v
        | .destination => .ann s.inp.start s.inp.stop .control .destination v
        | .source => .ann s.inp.start s.inp.stop .control .source v
        | .payload => .ann s.inp.start s.inp.stop .data .data v] := by
  unfold classifyByte
  cases positionClass s.cnt <;> rfl

/-- The classification writes `dest_id`, `src_id`, `fstart` and the events, by the position class. -/
theorem classifyByte_eq (v : Byte) (s : State) :
    classifyByte v s = { s with
      destId := if positionClass s.cnt = .destination then v else s.destId
      fstart := if positionClass s.cnt = .destination then s.inp.start else s.fstart
      srcId := if positionClass s.cnt = .source then v else s.srcId
      events := (classifyByte v s).events } := by
  unfold classifyByte
  cases positionClass s.cnt <;> rfl

/-- Only `fend` and `st` are written by the end-of-data check. -/
theorem endOfData_frame (s : State) :
    endOfData s = { s with st := (endOfData s).st, fend := (endOfData s).fend } := by
  unfold endOfData goTo tryTransition
  (repeat' split) <;> rfl

/-- In `Data` the end-of-data check moves to `Checksum` exactly at `cnt = exp_len` (42_data.md R78). -/
theorem endOfData_of_data {s : State} (h : s.st = .data) :
    endOfData s = { s with
      st := if s.cnt = s.expLen then .checksum else .data
      fend := if s.cnt = s.expLen then s.inp.stop else s.fend } := by
  unfold endOfData
  split
  · rw [goTo_of_allowed (by simp [h, allowed])]
  · rw [← h]

/-! ## The checksum handler -/

theorem execCksum_of_le {c : Byte} {s : State} (h : s.cnt.toNat ≤ 130) :
    execCksum c s = .next (completeFrame (emitDumpRow (emitDumpHeaderOnce (emitRawFrame c
      (reportValidity c (emitAnn .checksum c s)))))) :=
  if_pos h

theorem execCksum_of_gt {c : Byte} {s : State} (h : 130 < s.cnt.toNat) :
    execCksum c s = .fault .bufIndexOutOfRange :=
  if_neg (Nat.not_le.mpr h)

/-- A checksum step that answers a next state read only entries that exist. -/
theorem execCksum_next_le {c : Byte} {s t : State} (h : execCksum c s = .next t) : s.cnt.toNat ≤ 130 := by
  by_contra hc
  simp [execCksum_of_gt (Nat.not_le.mp hc)] at h

/-- The validity report: `cs_valid` and one event (43_checksum.md R82, R84, R85). -/
theorem reportValidity_eq (c : Byte) (s : State) :
    reportValidity c s = { s with
      csValid := decide (s.sum = c)
      events := s.events ++
        [if s.sum = c then .record s.fstart s.fend s.destId s.srcId (frameSlice s 3)
         else .ann s.inp.start s.inp.stop .inlineError .checksumInvalid c] } := by
  by_cases h : s.sum = c
  · subst h; simp [reportValidity, checksumMatches, emit]; rfl
  · simp [reportValidity, checksumMatches, h, emitAnn, emit, labelCategory]

/-- The one-time dump header: the flag ends set, and the event comes when it was not (43_checksum.md R87). -/
theorem emitDumpHeaderOnce_eq (s : State) :
    emitDumpHeaderOnce s = { s with
      dumpHdrDone := true
      events := s.events ++ if s.dumpHdrDone then [] else [.dumpHdr s.fstart s.inp.stop] } := by
  cases s with
  | mk st expLen cnt buf destId srcId sum fstart fend csValid done =>
    cases done <;> simp [emitDumpHeaderOnce, emit]

/-- The slices see the accumulator, the count and the count of resets only. -/
theorem frameSlice_of_eq {s t : State} (hb : t.buf = s.buf) (hc : t.cnt = s.cnt)
    (hr : t.resets = s.resets) (a : Nat) : frameSlice t a = frameSlice s a :=
  frameSlice_congr hc (fun i _ => bufRead_congr hb hr i) a

/-- Completion truncates the frame and, from `Checksum`, returns to `Header` (43_checksum.md R89). -/
theorem completeFrame_of_checksum {s : State} (h : s.st = .checksum) :
    completeFrame s = { s with st := .header, cnt := 0#8, sum := 0#8 } := by
  unfold completeFrame
  rw [goTo_of_allowed (by simp [h, allowed])]

end Sys2Proof.Machine
end

