-- ==== Sys2Proof/Laws/Interface.lean ====
section
/-! SUPPORT. The two keys of an input, and how a step is put together. -/

namespace Sys2Proof.Machine

theorem fieldAt_getLsbD {n : Nat} (w lo : Nat) (x : BitVec n) (j : Nat) :
    (fieldAt w lo x).getLsbD j = (decide (j < w) && decide (lo ≤ j) && x.getLsbD (j - lo)) := by
  unfold fieldAt
  rw [BitVec.getLsbD_shiftLeft, BitVec.getLsbD_setWidth]
  by_cases h1 : j < w <;> by_cases h2 : lo ≤ j <;> simp [h1, h2]
  simp [show ¬ j < lo by omega, show j - lo < w by omega]

theorem ofBool_getLsbD (b : Bool) (j : Nat) :
    (BitVec.ofBool b).getLsbD j = (decide (j = 0) && b) := by
  cases b <;> simp [BitVec.ofBool, Bool.and_comm]

/-- The CMD key is `(rst, cmd)` (30_encoding.md R44). -/
theorem cmdKey_eq (i : Input) : cmdKey i = fieldAt 3 2 (BitVec.ofBool i.rst) ||| fieldAt 3 0 i.cmd := by
  apply BitVec.eq_of_getLsbD_eq
  intro j hj
  simp only [cmdKey, inputWord, BitVec.getLsbD_or, BitVec.getLsbD_extractLsb', fieldAt_getLsbD,
    ofBool_getLsbD]
  have : j = 0 ∨ j = 1 ∨ j = 2 := by omega
  rcases this with rfl | rfl | rfl <;> simp

/-- The BYTE key is `(st, valid, is_data, value)` (30_encoding.md R43). -/
theorem byteKey_eq (st : FsmState) (i : Input) : byteKey st i = byteKeyOf st i.valid i.isData i.value := by
  apply BitVec.eq_of_getLsbD_eq
  intro j hj
  simp only [byteKey, byteKeyOf, inputWord, BitVec.getLsbD_or, BitVec.getLsbD_extractLsb',
    fieldAt_getLsbD, ofBool_getLsbD]
  have : j < 8 ∨ j = 8 ∨ j = 9 ∨ j = 10 ∨ j = 11 := by omega
  rcases this with h | rfl | rfl | rfl | rfl
  · have : ¬ 8 ≤ j ∧ ¬ 9 ≤ j ∧ ¬ 10 ≤ j ∧ ¬ 12 ≤ j ∧ j < 10 ∧ j < 13 := by omega
    simp [this, hj]
  all_goals simp

/-- A step with a reset is its CMD row alone (40_fsm.md R60). -/
theorem runStep_of_rst {s : State} (h : (takeInput s).inp.rst = true) :
    runStep s = runCmdRow (takeInput s) := by
  simp only [runStep, h, if_true]

/-- A step without a reset is its CMD row and then its BYTE row (40_fsm.md R60). -/
theorem runStep_of_not_rst {s : State} (h : (takeInput s).inp.rst = false) :
    runStep s = andThen (runCmdRow (takeInput s)) runByteRow := by
  simp only [runStep, h]
  rfl

end Sys2Proof.Machine
end

