-- ==== Sys2Proof/Laws/Decode.lean ====
section
/-! SUPPORT. The operation selected by a key, read from the key's fields. -/

namespace Sys2Proof.Machine

/-- The fields of a BYTE key read back (30_encoding.md R43). -/
theorem byteKeyOf_fields (st : FsmState) (valid isData : Bool) (v : Byte) :
    (byteKeyOf st valid isData v).extractLsb' 0 8 = v ∧
    (byteKeyOf st valid isData v).getLsbD 9 = valid ∧
    (byteKeyOf st valid isData v).getLsbD 8 = isData ∧
    stateOfCode ((byteKeyOf st valid isData v).extractLsb' 10 2) = st := by
  have hst : (byteKeyOf st valid isData v).extractLsb' 10 2 = stateCode st := by
    apply BitVec.eq_of_getLsbD_eq
    intro j hj
    simp only [byteKeyOf, BitVec.getLsbD_or, BitVec.getLsbD_extractLsb', fieldAt_getLsbD, ofBool_getLsbD]
    have : j = 0 ∨ j = 1 := by omega
    rcases this with rfl | rfl <;> simp
  refine ⟨?_, ?_, ?_, by rw [hst]; cases st <;> rfl⟩
  · apply BitVec.eq_of_getLsbD_eq
    intro j hj
    simp only [byteKeyOf, BitVec.getLsbD_or, BitVec.getLsbD_extractLsb', fieldAt_getLsbD, ofBool_getLsbD]
    have : ¬ 8 ≤ j ∧ ¬ 9 ≤ j ∧ ¬ 10 ≤ j ∧ ¬ 12 ≤ j ∧ j < 10 ∧ j < 12 := by omega
    simp [this, hj]
  all_goals simp [byteKeyOf, BitVec.getLsbD_or, fieldAt_getLsbD, -BitVec.getLsbD_eq_getElem]

theorem header_bit (v : Byte) : v.getLsbD 7 = decide (0x80 ≤ v.toNat) := by revert v; decide

/-- The BYTE row of a key (30_encoding.md R54). -/
theorem decodeByteKey_byteKeyOf (st : FsmState) (valid isData : Bool) (v : Byte) :
    decodeByteKey (byteKeyOf st valid isData v) =
      if valid = false then .nop st isData v
      else if isData = false then .ignore st v
      else match st with
        | .header => if 0x80 ≤ v.toNat then .hdrSof v else .hdrBad v
        | .data => .data v
        | .checksum => .cksum v
        | .error => .errByte v := by
  obtain ⟨h1, h2, h3, h4⟩ := byteKeyOf_fields st valid isData v
  unfold decodeByteKey
  rw [h1, h2, h3, h4]
  cases valid <;> cases isData <;> cases st <;> simp [-BitVec.getLsbD_eq_getElem, header_bit]

/-- The CMD row of a key (30_encoding.md R44, R45). -/
theorem decodeCmdKey_fields (rst : Bool) (cmd : BitVec 2) :
    decodeCmdKey (fieldAt 3 2 (BitVec.ofBool rst) ||| fieldAt 3 0 cmd) =
      if rst then .reset cmd
      else if cmd = 0b00#2 then .cmdNone
      else if cmd = 0b01#2 then .cmdToHeader
      else if cmd = 0b10#2 then .cmdToError
      else .cmdRsvd := by
  revert rst cmd; decide

end Sys2Proof.Machine
end

