-- ==== Sys2Proof/Laws/PerInstr.lean ====
section
/-! SUPPORT. Statements made per instruction. `InItsOwnRow`: the key of a well-formed instruction lies in the
opcode-table row of its own mnemonic. -/

namespace Sys2Proof.Laws.InItsOwnRow

/-- Some row of the table has the instruction's mnemonic and matches its key (30_encoding.md R54). -/
def Statement (i : Instr) : Prop :=
  i.wf = true → ∃ row ∈ opcodeTable, row.mnemonic = mnemonicOf i ∧ rowMatches row (encodeKey i) = true

/-- A BYTE key lies in a row when the masked key is the row's pattern. -/
theorem byte_row {i : Instr} {k p m : BitVec 12} (hk : encodeKey i = .byte k)
    (hrow : (⟨mnemonicOf i, .byte p, .byte m⟩ : OpRow) ∈ opcodeTable) (h : k &&& m = p) :
    ∃ row ∈ opcodeTable, row.mnemonic = mnemonicOf i ∧ rowMatches row (encodeKey i) = true :=
  ⟨_, hrow, rfl, by simp [hk, rowMatches, h]⟩

/-- A CMD key lies in a row when the masked key is the row's pattern. -/
theorem cmd_row {i : Instr} {k p m : BitVec 3} (hk : encodeKey i = .cmd k)
    (hrow : (⟨mnemonicOf i, .cmd p, .cmd m⟩ : OpRow) ∈ opcodeTable) (h : k &&& m = p) :
    ∃ row ∈ opcodeTable, row.mnemonic = mnemonicOf i ∧ rowMatches row (encodeKey i) = true :=
  ⟨_, hrow, rfl, by simp [hk, rowMatches, h]⟩

theorem nop (st : FsmState) (d : Bool) (v : Byte) : Statement (.nop st d v) := fun _ =>
  byte_row rfl (p := 0x000#12) (m := 0x200#12) (by simp [opcodeTable, mnemonicOf])
    (by revert v; cases st <;> cases d <;> decide)

theorem ignore (st : FsmState) (v : Byte) : Statement (.ignore st v) := fun _ =>
  byte_row rfl (p := 0x200#12) (m := 0x300#12) (by simp [opcodeTable, mnemonicOf])
    (by revert v; cases st <;> decide)

theorem hdrSof (v : Byte) : Statement (.hdrSof v) := fun h =>
  byte_row rfl (p := 0x380#12) (m := 0xF80#12) (by simp [opcodeTable, mnemonicOf])
    (by revert v; decide)

theorem hdrBad (v : Byte) : Statement (.hdrBad v) := fun h =>
  byte_row rfl (p := 0x300#12) (m := 0xF80#12) (by simp [opcodeTable, mnemonicOf])
    (by revert v; decide)

theorem data (v : Byte) : Statement (.data v) := fun _ =>
  byte_row rfl (p := 0x700#12) (m := 0xF00#12) (by simp [opcodeTable, mnemonicOf])
    (by revert v; decide)

theorem cksum (v : Byte) : Statement (.cksum v) := fun _ =>
  byte_row rfl (p := 0xB00#12) (m := 0xF00#12) (by simp [opcodeTable, mnemonicOf])
    (by revert v; decide)

theorem errByte (v : Byte) : Statement (.errByte v) := fun _ =>
  byte_row rfl (p := 0xF00#12) (m := 0xF00#12) (by simp [opcodeTable, mnemonicOf])
    (by revert v; decide)

theorem reset (c : BitVec 2) : Statement (.reset c) := fun _ =>
  cmd_row rfl (p := 0x4#3) (m := 0x4#3) (by simp [opcodeTable, mnemonicOf])
    (by revert c; decide)

theorem cmdNone : Statement .cmdNone := fun _ =>
  cmd_row rfl (p := 0x0#3) (m := 0x7#3) (by simp [opcodeTable, mnemonicOf]) (by decide)

theorem cmdToHeader : Statement .cmdToHeader := fun _ =>
  cmd_row rfl (p := 0x1#3) (m := 0x7#3) (by simp [opcodeTable, mnemonicOf]) (by decide)

theorem cmdToError : Statement .cmdToError := fun _ =>
  cmd_row rfl (p := 0x2#3) (m := 0x7#3) (by simp [opcodeTable, mnemonicOf]) (by decide)

theorem cmdRsvd : Statement .cmdRsvd := fun _ =>
  cmd_row rfl (p := 0x3#3) (m := 0x7#3) (by simp [opcodeTable, mnemonicOf]) (by decide)

end Sys2Proof.Laws.InItsOwnRow
end

