-- ==== Sys2Proof/Laws/Step.lean ====
section
/-! SUPPORT. What a step can do, said once: the cases every claim about a step goes through. -/

namespace Sys2Proof.Machine

open Sys2Proof.Safety

/-- The state a step's operations start from: its input on the ports, the outputs cleared. -/
def started (s : State) : State :=
  { s with inp := nextInput s, pending := s.pending.tail, cmdAck := false, events := [] }

theorem takeInput_eq (s : State) : takeInput s = started s := by
  unfold takeInput started nextInput
  split <;> simp [*]

/-- The state the BYTE row of a step starts from: the command can have written `st` and `cmd_ack` only. -/
def commanded (s : State) (st' : FsmState) (ack : Bool) : State := { started s with st := st', cmdAck := ack }

@[simp] theorem commanded_st (s : State) (x : FsmState) (a : Bool) : (commanded s x a).st = x := rfl
@[simp] theorem commanded_cmdAck (s : State) (x : FsmState) (a : Bool) : (commanded s x a).cmdAck = a := rfl
@[simp] theorem commanded_expLen (s : State) (x : FsmState) (a : Bool) : (commanded s x a).expLen = s.expLen := rfl
@[simp] theorem commanded_cnt (s : State) (x : FsmState) (a : Bool) : (commanded s x a).cnt = s.cnt := rfl
@[simp] theorem commanded_buf (s : State) (x : FsmState) (a : Bool) : (commanded s x a).buf = s.buf := rfl
@[simp] theorem commanded_destId (s : State) (x : FsmState) (a : Bool) : (commanded s x a).destId = s.destId := rfl
@[simp] theorem commanded_srcId (s : State) (x : FsmState) (a : Bool) : (commanded s x a).srcId = s.srcId := rfl
@[simp] theorem commanded_sum (s : State) (x : FsmState) (a : Bool) : (commanded s x a).sum = s.sum := rfl
@[simp] theorem commanded_fstart (s : State) (x : FsmState) (a : Bool) : (commanded s x a).fstart = s.fstart := rfl
@[simp] theorem commanded_fend (s : State) (x : FsmState) (a : Bool) : (commanded s x a).fend = s.fend := rfl
@[simp] theorem commanded_csValid (s : State) (x : FsmState) (a : Bool) : (commanded s x a).csValid = s.csValid := rfl
@[simp] theorem commanded_dumpHdrDone (s : State) (x : FsmState) (a : Bool) :
    (commanded s x a).dumpHdrDone = s.dumpHdrDone := rfl
@[simp] theorem commanded_events (s : State) (x : FsmState) (a : Bool) : (commanded s x a).events = [] := rfl
@[simp] theorem commanded_inp (s : State) (x : FsmState) (a : Bool) : (commanded s x a).inp = nextInput s := rfl
@[simp] theorem commanded_pending (s : State) (x : FsmState) (a : Bool) :
    (commanded s x a).pending = s.pending.tail := rfl
@[simp] theorem commanded_errAutoExit (s : State) (x : FsmState) (a : Bool) :
    (commanded s x a).errAutoExit = s.errAutoExit := rfl
@[simp] theorem commanded_resets (s : State) (x : FsmState) (a : Bool) : (commanded s x a).resets = s.resets := rfl

/-- What a command without reset does to the FSM and to `cmd_ack` (40_fsm.md R63 to R66): nothing and 0; or the
move to `Header` from `Checksum` or `Error` and 1; or the move to `Error` and 1. -/
inductive CommandEffect (cmd : BitVec 2) (st : FsmState) : FsmState → Bool → Prop where
  | none (hToError : cmd ≠ 0b10#2) (hToHeader : cmd = 0b01#2 → st = .header ∨ st = .data) :
      CommandEffect cmd st st false
  | toHeader (h : cmd = 0b01#2) (hst : st = .checksum ∨ st = .error) : CommandEffect cmd st .header true
  | toError (h : cmd = 0b10#2) : CommandEffect cmd st .error true

/-- The CMD row of an input without reset always completes. -/
theorem exec_cmd_row (i : Input) (s : State) (h : i.rst = false) :
    ∃ st' ack, CommandEffect i.cmd s.st st' ack ∧
      exec (decodeKey (.cmd (cmdKey i))) s = .next { s with st := st', cmdAck := ack } := by
  have hk : decodeKey (.cmd (cmdKey i)) = _ := (congrArg decodeCmdKey (cmdKey_eq i)).trans
    (decodeCmdKey_fields _ _)
  rw [hk, h]
  have hc : ∀ c : BitVec 2, c = 0b00#2 ∨ c = 0b01#2 ∨ c = 0b10#2 ∨ c = 0b11#2 := by decide
  rcases hc i.cmd with hc | hc | hc | hc <;> rw [hc]
  · exact ⟨_, _, .none (by decide) (fun hc => absurd hc (by decide)), rfl⟩
  · have he : exec .cmdToHeader s = _ := congrArg Host.Outcome.next (commandTransition_header s)
    by_cases hs : s.st = .header ∨ s.st = .data
    · exact ⟨_, _, .none (by decide) (fun _ => hs), by simpa [hs] using he⟩
    · refine ⟨_, _, .toHeader rfl ?_, by simpa [hs] using he⟩
      cases hst : s.st <;> simp_all
  · exact ⟨_, _, .toError rfl, rfl⟩
  · exact ⟨_, _, .none (by decide) (fun hc => absurd hc (by decide)), rfl⟩

/-- A step with a reset. -/
theorem step_of_rst {s : State} (h : (nextInput s).rst = true) : step s = execReset (started s) := by
  show runStep s = _
  have hi : (takeInput s).inp = nextInput s := by rw [takeInput_eq]; rfl
  have hk : decodeKey (.cmd (cmdKey (nextInput s))) = .reset (nextInput s).cmd := by
    refine (congrArg decodeCmdKey (cmdKey_eq _)).trans ?_
    rw [decodeCmdKey_fields, h]; rfl
  rw [runStep_of_rst (by rw [hi]; exact h), runCmdRow, hi, hk, takeInput_eq]; rfl

/-- A step without a reset: what the command did, and the row that handles the byte, if there is one. -/
theorem step_of_not_rst {s : State} (h : (nextInput s).rst = false) :
    ∃ st' ack, CommandEffect (nextInput s).cmd s.st st' ack ∧
      ((carriesByte (nextInput s) = false ∧ step s = .next (commanded s st' ack)) ∨
       (carriesByte (nextInput s) = true ∧ step s =
          match st' with
          | .header =>
            if 0x80 ≤ (nextInput s).value.toNat then execHdrSof (nextInput s).value (commanded s st' ack)
            else execHdrBad (nextInput s).value (commanded s st' ack)
          | .data => execData (nextInput s).value (commanded s st' ack)
          | .checksum => execCksum (nextInput s).value (commanded s st' ack)
          | .error => execErrByte (nextInput s).value (commanded s st' ack))) := by
  have hi : (takeInput s).inp = nextInput s := by rw [takeInput_eq]; rfl
  obtain ⟨st', ack, hE, he⟩ := exec_cmd_row (nextInput s) (takeInput s) h
  rw [takeInput_eq] at hE he
  refine ⟨st', ack, hE, ?_⟩
  have hs : step s = runByteRow (commanded s st' ack) := by
    show runStep s = _
    rw [runStep_of_not_rst (by rw [hi]; exact h), runCmdRow, hi, takeInput_eq, he]; rfl
  rw [hs, runByteRow, commanded_inp, commanded_st]
  have hk : decodeKey (.byte (byteKey st' (nextInput s))) = _ :=
    (congrArg decodeByteKey (byteKey_eq _ _)).trans (decodeByteKey_byteKeyOf _ _ _ _)
  rw [hk]
  cases hv : (nextInput s).valid
  · exact .inl ⟨by simp [carriesByte, hv], rfl⟩
  cases hd : (nextInput s).isData
  · exact .inl ⟨by simp [carriesByte, hd], rfl⟩
  refine .inr ⟨by simp [carriesByte, hv, hd], ?_⟩
  cases st' <;> simp only [Bool.true_eq_false, if_false]
  · split <;> rfl
  all_goals rfl

end Sys2Proof.Machine
end

