-- ==== Sys2Proof/Tests/Slice0.lean ====
section
/-! SUPPORT. Tests with expected values from the spec (95_test_vectors.md, the encoding strings of
spec/opcode_table.json), and for every statement with hypotheses a state and operands that meet them. -/

namespace Sys2Proof.Tests

open Sys2Proof Sys2Proof.Machine Sys2Proof.Safety

/-! ## Well-formedness: the one check refuses both wrong bytes -/

theorem test_wf_refuses_hdrSof_below_0x80 : (Instr.hdrSof 0x05#8).wf = false := by decide
theorem test_wf_refuses_hdrBad_from_0x80 : (Instr.hdrBad 0x80#8).wf = false := by decide
theorem test_wf_accepts_the_boundary : (Instr.hdrSof 0x80#8).wf = true ∧ (Instr.hdrBad 0x7F#8).wf = true := by
  decide

/-! ## Decoding: words written out from the encoding strings -/

/-- `ss0dvvvvvvvv` -/
theorem test_decode_nop : decodeTableWord 16 0b100101010101 = some (.nop .checksum true 0x55#8) := by decide
/-- `ss10vvvvvvvv` -/
theorem test_decode_ignore : decodeTableWord 16 0b011000001111 = some (.ignore .data 0x0F#8) := by decide
/-- `00111vvvvvvv` -/
theorem test_decode_hdrSof : decodeTableWord 16 0b001110000010 = some (.hdrSof 0x82#8) := by decide
/-- `00110vvvvvvv` -/
theorem test_decode_hdrBad : decodeTableWord 16 0b001100000101 = some (.hdrBad 0x05#8) := by decide
/-- `0111vvvvvvvv` -/
theorem test_decode_data : decodeTableWord 16 0b011110101010 = some (.data 0xAA#8) := by decide
/-- `1011vvvvvvvv` -/
theorem test_decode_cksum : decodeTableWord 16 0b101100010111 = some (.cksum 0x17#8) := by decide
/-- `1111vvvvvvvv` -/
theorem test_decode_errByte : decodeTableWord 16 0b111101010101 = some (.errByte 0x55#8) := by decide
/-- `1cc` -/
theorem test_decode_reset : decodeTableWord 8 0b101 = some (.reset 0b01#2) := by decide
/-- `000` -/
theorem test_decode_cmdNone : decodeTableWord 8 0b000 = some .cmdNone := by decide
/-- `001` -/
theorem test_decode_cmdToHeader : decodeTableWord 8 0b001 = some .cmdToHeader := by decide
/-- `010` -/
theorem test_decode_cmdToError : decodeTableWord 8 0b010 = some .cmdToError := by decide
/-- `011` -/
theorem test_decode_cmdRsvd : decodeTableWord 8 0b011 = some .cmdRsvd := by decide
/-- A bit above the key is no instruction (log 11). -/
theorem test_decode_refuses_padding : decodeTableWord 16 0x1380 = none ∧ decodeTableWord 8 0x08 = none := by
  decide
/-- The input words of the stimulus table (30_encoding.md R57). -/
theorem test_input_words :
    inputWord (byteInput 0x83#8 0 0) = 0x383#13 ∧ inputWord (nonDataInput 0x01#8 0 0) = 0x201#13 ∧
    inputWord Input.idle = 0x000#13 ∧ inputWord (withToHeader (byteInput 0x05#8 0 0)) = 0x705#13 ∧
    inputWord (withToError Input.idle) = 0x800#13 ∧ inputWord (withReserved Input.idle) = 0xC00#13 ∧
    inputWord resetInput = 0x1000#13 := by decide

/-! ## Single steps -/

/-- The state a step leads to. -/
def nextOf (r : Result) : Option State :=
  match r with
  | .next s => some s
  | .fault _ => none
  | .refused _ => none

/-- The step of `s` on the input `i`. -/
def on (s : State) (i : Input) : Option State := nextOf (step { s with pending := [i] })

/-- The fields a test looks at. -/
structure Seen where
  stOut : BitVec 2
  ack : Bool
  cnt : Nat
  sum : Byte
  events : List Event
deriving DecidableEq, Repr

def seen (s : State) : Seen := ⟨stOut s, s.cmdAck, s.cnt.toNat, s.sum, s.events⟩

/-- The registers of the end states of 95_test_vectors.md. -/
structure Registers where
  expLen : Nat
  destId : Byte
  srcId : Byte
  fstart : Pos
  fend : Pos
  csValid : Bool
  dumpHdrDone : Bool
deriving DecidableEq, Repr

def registers (s : State) : Registers :=
  ⟨s.expLen.toNat, s.destId, s.srcId, s.fstart, s.fend, s.csValid, s.dumpHdrDone⟩

/-- W6b after step 4. -/
def afterFour : State :=
  { State.reset with
    st := .data, expLen := 5#8, cnt := 4#8, sum := 0x5C#8, destId := 0x10#8, srcId := 0x20#8, fstart := 20
    buf := [(0, 0x82#8), (1, 0x10#8), (2, 0x20#8), (3, 0xAA#8)] }

/-- W6b after step 5. -/
def afterFive : State :=
  { State.reset with
    st := .checksum, expLen := 5#8, cnt := 5#8, sum := 0x17#8, destId := 0x10#8, srcId := 0x20#8
    fstart := 20, fend := 59
    buf := [(0, 0x82#8), (1, 0x10#8), (2, 0x20#8), (3, 0xAA#8), (4, 0xBB#8)] }

/-- V5.1 after step 2: the next byte is the source and the last before the checksum. -/
def afterDestination : State :=
  { State.reset with
    st := .data, expLen := 3#8, cnt := 2#8, sum := 0x81#8, destId := 0x01#8, fstart := 20
    buf := [(0, 0x80#8), (1, 0x01#8)] }

/-- `Error` entered in the middle of W6b, V3.3's way. -/
def inError : State := { afterFour with st := .error }

/-- V1.2, `IDLE` in `Data`. -/
theorem test_nop_in_data :
    (on afterFour Input.idle).map seen = some ⟨0b01#2, false, 4, 0x5C#8, []⟩ := by decide

/-- The example of 44_error_and_nondata.md R93, and in `Checksum` the event is not the checksum byte. -/
theorem test_ignore_in_data_and_checksum :
    (on afterDestination (nonDataInput 0x00#8 0 9)).map seen = some ⟨0b01#2, false, 2, 0x81#8, []⟩ ∧
    (on afterFive (nonDataInput 0x17#8 0 9)).map seen = some ⟨0b10#2, false, 5, 0x17#8, []⟩ := by decide

/-- W6b, step 1. -/
theorem test_hdrSof_starts_w6b :
    (on State.reset (byteInput 0x82#8 10 19)).map seen =
      some ⟨0b01#2, false, 1, 0x82#8, [.ann 10 19 .control .header 0x82#8]⟩ := by decide

/-- V3.3, step 4: a command and a header in one step, over an abandoned frame. -/
theorem test_hdrSof_after_an_abandoned_frame :
    (on inError (withToHeader (byteInput 0x81#8 40 49))).map seen =
      some ⟨0b01#2, true, 1, 0x81#8, [.ann 40 49 .control .header 0x81#8]⟩ := by decide

/-- W7, step 1. -/
theorem test_hdrBad_w7 :
    (on State.reset (byteInput 0x05#8 10 19)).map seen =
      some ⟨0b00#2, false, 0, 0x00#8, [.ann 10 19 .inlineError .sofMalformed 0x05#8]⟩ := by decide

/-- V3.3, step 1: the rejected command and the malformed header in one step. -/
theorem test_hdrBad_with_a_rejected_command :
    (on State.reset (withToHeader (byteInput 0x05#8 10 19))).map seen =
      some ⟨0b00#2, false, 0, 0x00#8, [.ann 10 19 .inlineError .sofMalformed 0x05#8]⟩ := by decide

/-- W6b, step 5: the last payload byte moves to `Checksum`, and `fend` is its end. -/
theorem test_data_last_payload_byte :
    (on afterFour (byteInput 0xBB#8 50 59)).map seen =
      some ⟨0b10#2, false, 5, 0x17#8, [.ann 50 59 .data .data 0xBB#8]⟩ ∧
    (on afterFour (byteInput 0xBB#8 50 59)).map registers =
      some ⟨5, 0x10#8, 0x20#8, 20, 59, false, false⟩ := by decide

/-- V5.1, step 3: with `exp_len = 3` the source byte ends the data. -/
theorem test_data_source_ends_the_data :
    (on afterDestination (byteInput 0x02#8 30 39)).map seen =
      some ⟨0b10#2, false, 3, 0x83#8, [.ann 30 39 .control .source 0x02#8]⟩ ∧
    (on afterDestination (byteInput 0x02#8 30 39)).map registers =
      some ⟨3, 0x01#8, 0x02#8, 20, 39, false, false⟩ := by decide

/-- W6b, step 6. -/
theorem test_cksum_valid_frame :
    (on afterFive (byteInput 0x17#8 60 69)).map seen =
      some ⟨0b00#2, false, 0, 0x00#8,
        [.ann 60 69 .control .checksum 0x17#8,
         .record 20 59 0x10#8 0x20#8 [0xAA#8, 0xBB#8],
         .bin 20 69 .device [0x82#8, 0x10#8, 0x20#8, 0xAA#8, 0xBB#8, 0x17#8],
         .dumpHdr 20 69,
         .dumpRow 20 69 .device 0x20#8 0x10#8 [0xAA#8, 0xBB#8] true]⟩ ∧
    (on afterFive (byteInput 0x17#8 60 69)).map registers =
      some ⟨5, 0x10#8, 0x20#8, 20, 59, true, true⟩ := by decide

/-- W8, step 6. -/
theorem test_cksum_invalid_frame :
    (on afterFive (byteInput 0x18#8 60 69)).map (fun s => (s.csValid, s.events)) =
      some (false,
        [.ann 60 69 .control .checksum 0x18#8,
         .ann 60 69 .inlineError .checksumInvalid 0x18#8,
         .bin 20 69 .device [0x82#8, 0x10#8, 0x20#8, 0xAA#8, 0xBB#8, 0x18#8],
         .dumpHdr 20 69,
         .dumpRow 20 69 .device 0x20#8 0x10#8 [0xAA#8, 0xBB#8] false]) := by decide

/-- The example of 44_error_and_nondata.md R92, for both values of `ERR_AUTO_EXIT`. -/
theorem test_errByte_for_both_parameters :
    (on inError (byteInput 0x55#8 30 39)).map seen =
      some ⟨0b11#2, false, 4, 0x5C#8, [.ann 30 39 .error .error 0x55#8]⟩ ∧
    (on { inError with errAutoExit := true } (byteInput 0x55#8 30 39)).map seen =
      some ⟨0b00#2, false, 4, 0x5C#8, [.ann 30 39 .error .error 0x55#8]⟩ := by decide

/-- The example of 40_fsm.md R67; the byte and the command of the step are discarded. -/
theorem test_reset_discards_command_and_byte :
    (on afterFour { byteInput 0xBB#8 50 59 with rst := true, cmd := 0b10#2 }).map seen =
      some ⟨0b00#2, false, 0, 0x00#8, []⟩ := by decide

/-- V1.2, the rows of `CMD NONE`, of `CMD RSVD` and of V1.4 step 2. -/
theorem test_cmdNone_and_cmdRsvd :
    (on inError Input.idle).map seen = some ⟨0b11#2, false, 4, 0x5C#8, []⟩ ∧
    (on inError (withReserved Input.idle)).map seen = some ⟨0b11#2, false, 4, 0x5C#8, []⟩ ∧
    (on State.reset (withReserved (byteInput 0x80#8 20 29))).map seen =
      some ⟨0b01#2, false, 1, 0x80#8, [.ann 20 29 .control .header 0x80#8]⟩ := by decide

/-- V1.2, the four rows of `CMD HDR`: st_out and cmd_ack. -/
theorem test_cmdToHeader_in_every_state :
    [State.reset, afterFour, afterFive, inError].map
        (fun s => (on s (withToHeader Input.idle)).map (fun t => (stOut t, t.cmdAck))) =
      [some (0b00#2, false), some (0b01#2, false), some (0b00#2, true), some (0b00#2, true)] := by decide

/-- V1.2, the four rows of `CMD ERR`. -/
theorem test_cmdToError_in_every_state :
    [State.reset, afterFour, afterFive, inError].map
        (fun s => (on s (withToError Input.idle)).map (fun t => (stOut t, t.cmdAck))) =
      [some (0b11#2, true), some (0b11#2, true), some (0b11#2, true), some (0b11#2, true)] := by decide

/-- Every row of the table runs as the first step after reset. -/
theorem test_every_row_runs_from_reset :
    ([0x000, 0x200, 0x380, 0x300, 0x700, 0xB00, 0xF00].all
      (fun w => (nextOf (step (State.reset.withFetchWord 16 w))).isSome)) = true ∧
    ([0x4, 0x0, 0x1, 0x2, 0x3].all
      (fun w => (nextOf (step (State.reset.withFetchWord 8 w))).isSome)) = true := by decide

/-! ## Witnesses: what the hypotheses of the statements are met by -/

theorem afterFour_inv : Inv afterFour where
  bufWf := by decide
  cntLeExpLen := by decide
  expLenLegal := by decide
  dataRange := by decide
  checksumFull := by decide
  sumIsBufferSum := by decide
  entriesWritten := by decide
  destIsSecond := by decide
  srcIsThird := by decide

theorem afterFive_inv : Inv afterFive where
  bufWf := by decide
  cntLeExpLen := by decide
  expLenLegal := by decide
  dataRange := by decide
  checksumFull := by decide
  sumIsBufferSum := by decide
  entriesWritten := by decide
  destIsSecond := by decide
  srcIsThird := by decide

/-- `afterFive` with bit 0 of the payload byte 0xAA flipped. -/
def flipped : State :=
  { afterFive with
    sum := 0x18#8, buf := [(0, 0x82#8), (1, 0x10#8), (2, 0x20#8), (3, 0xAB#8), (4, 0xBB#8)] }

theorem flipped_inv : Inv flipped where
  bufWf := by decide
  cntLeExpLen := by decide
  expLenLegal := by decide
  dataRange := by decide
  checksumFull := by decide
  sumIsBufferSum := by decide
  entriesWritten := by decide
  destIsSecond := by decide
  srcIsThird := by decide

/-- A state with inputs waiting. -/
def waiting (s : State) (inputs : List Input) : State := { s with pending := inputs }

theorem inv_of_waiting {s : State} (h : Inv s) (inputs : List Input) : Inv (waiting s inputs) :=
  ⟨h.bufWf, h.cntLeExpLen, h.expLenLegal, h.dataRange, h.checksumFull, h.sumIsBufferSum, h.entriesWritten,
    h.destIsSecond, h.srcIsThird⟩

theorem inv_of_reset : Inv State.reset where
  bufWf := by decide
  cntLeExpLen := by decide
  expLenLegal := by decide
  dataRange := by decide
  checksumFull := by decide
  sumIsBufferSum := by decide
  entriesWritten := by decide
  destIsSecond := by decide
  srcIsThird := by decide

/-- `afterFive` with other contents in the places no rule reads before writing them. -/
def afterFiveHidden : State :=
  { afterFive with csValid := true, resets := 7, buf := afterFive.buf ++ [(9, 0x55#8)] }

theorem afterFiveHidden_inv : Inv afterFiveHidden where
  bufWf := by decide
  cntLeExpLen := by decide
  expLenLegal := by decide
  dataRange := by decide
  checksumFull := by decide
  sumIsBufferSum := by decide
  entriesWritten := by decide
  destIsSecond := by decide
  srcIsThird := by decide

theorem witness_DecodeOfEncodeIsTheInstruction :
    (Instr.hdrSof 0x80#8).wf = true ∧ (Instr.hdrBad 0x7F#8).wf = true ∧ (Instr.reset 0b11#2).wf = true := by
  decide

theorem witness_ShortAndPaddedBytesAreRefused : 16 ≤ (0x10#8).toNat ∧ 8 ≤ (0x08#8).toNat := by decide

theorem witness_StepRunsTheDecodedRows :
    (nextInput (waiting afterFour [resetInput])).rst = true ∧ (nextInput afterFour).rst = false := by decide

/-- Both clauses, at pairs where the table changes. -/
theorem witness_TryTransitionFollowsTheTable :
    (afterFour.st = .data ∧ FsmState.checksum = .checksum) ∧
    ¬ (FsmState.header = .error ∨ (afterFour.st = .header ∧ FsmState.header = .data) ∨
        (afterFour.st = .data ∧ (FsmState.header = .data ∨ FsmState.header = .checksum)) ∨
        (afterFour.st = .checksum ∧ FsmState.header = .header) ∨
        (afterFour.st = .error ∧ FsmState.header = .header)) := by decide

theorem witness_LengthDecoderGivesThePayloadPlusThree :
    0x80 ≤ (0x80#8).toNat ∧ 0x80 ≤ (0xFF#8).toNat := by decide

theorem witness_HdrSofStartsAFrame : (Instr.hdrSof 0x82#8).wf = true ∧ State.reset.st = .header := by decide

/-- The counts where the clauses of the statement change: the destination, the source, a payload byte, the last
append. -/
theorem witness_DataAppendsClassifiesAndChecksTheEnd :
    ∀ n ∈ [0, 1, 2, 3, 129], ∃ s : State, s.st = .data ∧ s.cnt.toNat = n ∧ s.cnt.toNat < 130 := by
  intro n hn
  refine ⟨{ afterFour with cnt := BitVec.ofNat 8 n }, rfl, ?_⟩
  revert n
  decide

theorem witness_AppendsStoreOneEntryOnly :
    (∃ t, exec (.data 0xBB#8) afterFour = .next t) ∧ (∃ t, exec (.hdrSof 0x82#8) State.reset = .next t) :=
  ⟨⟨_, rfl⟩, ⟨_, rfl⟩⟩

theorem witness_AccumulatorReadsBackWhatWasWritten :
    Memory.wf afterFour.buf = true ∧ 129 < 130 ∧ (0 : Nat) ≠ 129 := by decide

theorem witness_MissingEntriesStopTheAccess :
    130 ≤ ({ afterFour with cnt := 130#8 } : State).cnt.toNat ∧
    130 < ({ afterFive with cnt := 131#8 } : State).cnt.toNat := by decide

theorem witness_NonFrameRowsKeepTheFrame :
    (∃ t, exec (.nop .data false 0#8) afterFour = .next t) ∧ (∃ t, exec (.ignore .data 0#8) afterFour = .next t) ∧
    (∃ t, exec (.hdrBad 0x05#8) afterFour = .next t) ∧ (∃ t, exec (.errByte 0x05#8) inError = .next t) ∧
    (∃ t, exec .cmdNone afterFour = .next t) ∧ (∃ t, exec .cmdToHeader afterFive = .next t) ∧
    (∃ t, exec .cmdToError afterFour = .next t) ∧ (∃ t, exec .cmdRsvd afterFour = .next t) :=
  ⟨⟨_, rfl⟩, ⟨_, rfl⟩, ⟨_, rfl⟩, ⟨_, rfl⟩, ⟨_, rfl⟩, ⟨_, rfl⟩, ⟨_, rfl⟩, ⟨_, rfl⟩⟩

/-- Also at the longest frame. -/
theorem witness_CksumEmitsTheFrameAndReturnsToHeader :
    (afterFive.st = .checksum ∧ afterFive.cnt.toNat ≤ 130) ∧
    ({ afterFive with cnt := 130#8 } : State).cnt.toNat ≤ 130 := by decide

theorem witness_CksumKeepsTheAccumulator : ∃ t, exec (.cksum 0x17#8) afterFive = .next t := ⟨_, rfl⟩

theorem witness_FrameIsValidIffItsSumMatches : Inv afterFive ∧ afterFive.st = .checksum :=
  ⟨afterFive_inv, rfl⟩

/-- The sources on both sides of both ends of the range. -/
theorem witness_TesterIffSourceInTheRange :
    ∀ src ∈ [0xEF#8, 0xF0#8, 0xFD#8, 0xFE#8], ({ afterFive with srcId := src } : State).cnt.toNat ≤ 130 := by
  decide

theorem witness_RecordForValidFramesOnly : Inv afterFive ∧ afterFive.st = .checksum := ⟨afterFive_inv, rfl⟩
theorem witness_RawRecordForEveryFrame : Inv flipped ∧ flipped.st = .checksum := ⟨flipped_inv, rfl⟩
theorem witness_RawBinaryChannelOfACompletedFrame : afterFive.cnt.toNat ≤ 130 := by decide

theorem witness_DumpHeaderOnlyOnceUntilReset :
    ∃ s t : State, s.dumpHdrDone = true ∧ (nextInput s).rst = false ∧ s.st = .checksum ∧
      carriesByte (nextInput s) = true ∧ step s = .next t :=
  ⟨waiting { afterFive with dumpHdrDone := true } [byteInput 0x17#8 60 69], _, rfl, rfl, rfl, rfl, rfl⟩

theorem witness_SingleBitFlipInvalidatesAFrame :
    (Inv afterFive ∧ Inv flipped ∧ afterFive.st = .checksum ∧ flipped.st = .checksum ∧
      flipped.cnt = afterFive.cnt ∧ 0 < 8 ∧ 1 ≤ 3 ∧ 3 < afterFive.cnt.toNat) ∧
    bufRead flipped 3 = bufRead afterFive 3 ^^^ BitVec.twoPow 8 0 ∧
    (∀ j, j < afterFive.cnt.toNat → j ≠ 3 → bufRead flipped j = bufRead afterFive j) ∧
    ∃ t, exec (.cksum 0x17#8) afterFive = .next t ∧ t.csValid = true :=
  ⟨⟨afterFive_inv, flipped_inv, by decide⟩, by decide, by decide, _, rfl, by decide⟩

theorem witness_ErrByteReportsAndStaysUnlessAutoExit :
    inError.st = .error ∧ ({ inError with errAutoExit := true } : State).st = .error := by decide

theorem witness_ErrorIsEnteredByCommandOnly :
    ∃ s t : State, s.st ≠ .error ∧ step s = .next t ∧ t.st = .error :=
  ⟨waiting afterFour [withToError Input.idle], _, by decide, rfl, rfl⟩

/-- Each of the three exits. -/
theorem witness_ErrorIsLeftByItsThreeExitsOnly :
    (∃ s t : State, s.st = .error ∧ step s = .next t ∧ t.st ≠ .error ∧ (nextInput s).rst = true) ∧
    (∃ s t : State, s.st = .error ∧ step s = .next t ∧ t.st ≠ .error ∧ (nextInput s).cmd = 0b01#2) ∧
    (∃ s t : State, s.st = .error ∧ step s = .next t ∧ t.st ≠ .error ∧ s.errAutoExit = true ∧
      carriesByte (nextInput s) = true) :=
  ⟨⟨waiting inError [resetInput], _, rfl, rfl, by decide, rfl⟩,
    ⟨waiting inError [withToHeader Input.idle], _, rfl, rfl, by decide, rfl⟩,
    ⟨waiting { inError with errAutoExit := true } [byteInput 0x55#8 30 39], _, rfl, rfl, by decide, rfl, rfl⟩⟩

theorem witness_ResetStepDiscardsTheRestOfItsInput :
    (nextInput (waiting afterFour [{ byteInput 0xBB#8 50 59 with rst := true, cmd := 0b10#2 }])).rst = true := by
  decide

/-- Both clauses, the second at the last malformed and the first valid header. -/
theorem witness_CommandActsBeforeTheByte :
    (waiting afterFour [withToError (byteInput 0x10#8 30 39)]).pending =
      withToError (byteInput 0x10#8 30 39) :: [] ∧
    (waiting inError [withToHeader (byteInput 0x7F#8 40 49)]).pending =
      withToHeader (byteInput 0x7F#8 40 49) :: [] ∧
    (waiting inError [withToHeader (byteInput 0x80#8 40 49)]).pending =
      withToHeader (byteInput 0x80#8 40 49) :: [] ∧ inError.st = .error := by decide

/-- With nothing waiting, and with a non-data event waiting. -/
theorem witness_IdleStepKeepsTheState :
    ∀ s ∈ [afterFour, waiting afterFive [nonDataInput 0x17#8 60 69]],
      (nextInput s).rst = false ∧ (nextInput s).cmd = 0b00#2 ∧ carriesByte (nextInput s) = false := by decide

/-- Each clause: no byte; a byte outside `Checksum`; a checksum byte. -/
theorem witness_EventsPerStepAreAtMostFive :
    (∃ t, step (waiting afterFour [resetInput]) = .next t) ∧
    (∃ s t : State, step s = .next t ∧ (nextInput s).rst = false ∧ carriesByte (nextInput s) = true ∧
      s.st ≠ .checksum) ∧
    (∃ s t : State, step s = .next t ∧ (nextInput s).rst = false ∧ carriesByte (nextInput s) = true ∧
      s.st = .checksum ∧ (nextInput s).cmd = 0b00#2) :=
  ⟨⟨_, rfl⟩, ⟨waiting afterFour [byteInput 0xBB#8 50 59], _, rfl, rfl, rfl, by decide⟩,
    ⟨waiting afterFive [byteInput 0x17#8 60 69], _, rfl, rfl, rfl, rfl, rfl⟩⟩

theorem witness_FrameEventsComeFromChecksumBytesOnly :
    ∃ (s t : State) (e : Event), step s = .next t ∧ e ∈ t.events ∧ eventChannel e ≠ .annotation :=
  ⟨waiting afterFive [byteInput 0x17#8 60 69], _, .dumpHdr 20 69, rfl, by decide, by decide⟩

/-- On a byte that moves to `Checksum` and on a reset. -/
theorem witness_EveryStepKeepsTheInvariant :
    (Inv (waiting afterFour [byteInput 0xBB#8 50 59]) ∧
      ∃ t, step (waiting afterFour [byteInput 0xBB#8 50 59]) = .next t) ∧
    (Inv (waiting afterFour [resetInput]) ∧ ∃ t, step (waiting afterFour [resetInput]) = .next t) :=
  ⟨⟨inv_of_waiting afterFour_inv _, _, rfl⟩, ⟨inv_of_waiting afterFour_inv _, _, rfl⟩⟩

theorem witness_NoErrorIsFatal : Inv (waiting afterFive [byteInput 0x18#8 60 69]) :=
  inv_of_waiting afterFive_inv _

theorem witness_HeaderIsEmptyWithoutCommands :
    ∃ s t : State, Inv s ∧ NoAbandonedFrame s ∧ ((nextInput s).cmd ≠ 0b01#2 ∧ (nextInput s).cmd ≠ 0b10#2) ∧
      step s = .next t ∧ t.st = .header :=
  ⟨waiting afterFive [byteInput 0x17#8 60 69], _, inv_of_waiting afterFive_inv _, ⟨by decide, by decide⟩,
    by decide, rfl, rfl⟩

theorem witness_HiddenStateNeverReachesAnOutput :
    ∃ s t s' : State, Inv s ∧ Inv t ∧ SameVisible s t ∧ s.buf ≠ t.buf ∧ s.csValid ≠ t.csValid ∧
      step s = .next s' :=
  ⟨waiting afterFive [byteInput 0x17#8 60 69], waiting afterFiveHidden [byteInput 0x17#8 60 69], _,
    inv_of_waiting afterFive_inv _, inv_of_waiting afterFiveHidden_inv _,
    ⟨by decide, by decide, by decide, by decide, fun _ => by decide, fun _ => by decide, fun _ => by decide,
      fun _ => by decide, fun _ _ => by decide, fun _ _ => by decide, fun _ _ => by decide, fun _ => by decide⟩,
    by decide, by decide, rfl⟩

theorem witness_ResetMakesTheBlockFresh :
    (nextInput (waiting inError [resetInput, byteInput 0x80#8 0 9])).rst = true := by decide

/-- Both clauses: an idle step, and the byte that ends the data. -/
theorem witness_OnlyDataBytesAdvanceAFrame :
    ∀ inputs ∈ [[], [byteInput 0xBB#8 50 59]],
      (waiting afterFour inputs).st = .data ∧ (nextInput (waiting afterFour inputs)).rst = false ∧
      (nextInput (waiting afterFour inputs)).cmd ≠ 0b10#2 ∧ Inv (waiting afterFour inputs) :=
  fun inputs h => by
    simp only [List.mem_cons, List.not_mem_nil, or_false] at h
    rcases h with rfl | rfl
    · exact ⟨rfl, rfl, by decide, inv_of_waiting afterFour_inv _⟩
    · exact ⟨rfl, rfl, by decide, inv_of_waiting afterFour_inv _⟩

/-- A non-data event, a rejected command and the destination between the header and the last byte. -/
theorem witness_FrameReachesChecksumOnItsLastByte :
    let between := [nonDataInput 0x01#8 5 6, withToHeader Input.idle, byteInput 0x01#8 20 29]
    let rest := [byteInput 0x02#8 30 39]
    let s := waiting State.reset (byteInput 0x80#8 10 19 :: (between ++ rest))
    s.st = .header ∧ 0x80 ≤ (0x80#8).toNat ∧ (∀ i ∈ between, i.rst = false ∧ i.cmd ≠ 0b10#2) ∧
    s.pending = byteInput 0x80#8 10 19 :: (between ++ rest) ∧
    1 + between.countP carriesByte < (0x80#8).toNat - 0x80 + 3 := by decide

/-- The shortest frame, over an abandoned one. -/
theorem witness_WholeFrameEmitsItsRecords :
    let pos : Nat → Pos × Pos := fun k => (10 * k, 10 * k + 9)
    let s := waiting { inError with st := .header } (([0x80#8, 0x01#8, 0x02#8] ++ [0x83#8]).zipIdx.map
      (fun p => byteInput p.1 (pos p.2).1 (pos p.2).2) ++ [])
    s.st = .header ∧ 0x80 ≤ (0x80#8).toNat ∧ ([] : List Byte).length = (0x80#8).toNat - 0x80 ∧
    s.pending = (((0x80#8 : Byte) :: 0x01#8 :: 0x02#8 :: [] ++ [0x83#8]).zipIdx.map
      (fun p => byteInput p.1 (pos p.2).1 (pos p.2).2)) ++ [] := by decide

/-- Both programs, at the shortest and the longest payload. -/
theorem witness_FrameIsValidAndBadFrameIsNot :
    State.reset.st = .header ∧ ([] : List Byte).length ≤ 127 ∧
    (List.replicate 127 (0xFF#8 : Byte)).length ≤ 127 ∧
    (waiting State.reset (byteInputsFrom 1 (frameBytes 0x01#8 0x02#8 []))).pending =
      byteInputsFrom 1 (frameBytes 0x01#8 0x02#8 []) ∧
    (waiting State.reset (byteInputsFrom 1 (badFrameBytes 0x01#8 0x02#8 []))).pending =
      byteInputsFrom 1 (badFrameBytes 0x01#8 0x02#8 []) :=
  ⟨rfl, by decide, by simp, rfl, rfl⟩

theorem witness_PositionsStayWithinTheirWidth :
    ∃ s t : State, Inv s ∧ PositionsFit 7 s ∧ InputsFit 7 s.pending ∧ step s = .next t ∧ t.events ≠ [] :=
  ⟨waiting afterFive [byteInput 0x17#8 60 69], _, inv_of_waiting afterFive_inv _,
    ⟨fun _ _ => by decide, fun _ => by decide⟩, by unfold InputsFit; decide, rfl, by decide⟩

theorem witness_ParameterAndInputsAreOnlyRead :
    ∃ t, step (waiting { inError with errAutoExit := true } [byteInput 0x55#8 30 39]) = .next t := ⟨_, rfl⟩

end Sys2Proof.Tests
end

section
/-! PROOFS. The declared metadata: what names a category and what tag an event carries
(30_encoding.md R49, R52). -/

namespace Sys2Proof.Machine

theorem roleTag_roleOfSource (src : Byte) :
    roleTag (roleOfSource src) = if 0xF0 ≤ src.toNat ∧ src.toNat ≤ 0xFD then 0 else 1 := by
  have hrange : (0xF0#8 ≤ src ∧ src ≤ 0xFD#8) ↔ (0xF0 ≤ src.toNat ∧ src.toNat ≤ 0xFD) := by
    simp [BitVec.le_def]
  simp only [roleOfSource, hrange]
  split
  · rfl
  · rfl

/-- Only the raw-binary channel is tagged. -/
theorem eventTag_eq_none_of_channel {e : Event} (h : eventChannel e ≠ .rawBinary) :
    eventTag e = none := by
  cases e with
  | ann | record => rfl
  | bin | dumpHdr | dumpRow => exact absurd rfl h

/-- Settles O56: the tables and the dump tags are read off the definitions; `roleTag_roleOfSource` gives the tag
of a raw frame and `eventTag_eq_none_of_channel` the events without one. -/
theorem categoriesAndTagsAreTheDeclaredOnes : Obligations.CategoriesAndTagsAreTheDeclaredOnes :=
  ⟨rfl, rfl, fun _ _ src _ => congrArg some (roleTag_roleOfSource src), fun _ _ => rfl,
    fun _ _ _ _ _ _ _ => rfl, fun _ => eventTag_eq_none_of_channel⟩

end Sys2Proof.Machine
end

section
/-! PROOFS. The header handler: the length decoder and the report of a malformed header
(41_header.md R69 to R71). -/

namespace Sys2Proof.Machine

/-! ## The length decoder -/

/-- For a valid header the low seven bits are what remains above `0x80`, and adding 3 does not wrap. -/
theorem decodeLength_toNat {h : Byte} (hvalid : 0x80 ≤ h.toNat) :
    (decodeLength h).toNat = h.toNat - 0x80 + 3 := by
  have hlt : h.toNat < 256 := h.isLt
  have hlow : (h.extractLsb' 0 7).toNat = h.toNat - 0x80 := by
    rw [BitVec.extractLsb'_toNat]
    simp only [Nat.shiftRight_zero]
    omega
  simp only [decodeLength, BitVec.toNat_add, BitVec.toNat_setWidth, BitVec.toNat_ofNat, hlow]
  omega

/-! ## Rows of the header handler -/

/-- The append, the classification and the end-of-data check leave the declared length as it is. -/
theorem dataAction_expLen {v : Byte} {s : State} (h : s.cnt.toNat < 130) :
    ∃ t, dataAction v s = .next t ∧ t.expLen = s.expLen := by
  refine ⟨_, dataAction_of_lt h, ?_⟩
  rw [endOfData_frame, classifyByte_eq]

@[simp] theorem startFrame_expLen (h : Byte) (s : State) :
    (startFrame h s).expLen = decodeLength h := by
  simp [startFrame]

@[simp] theorem startFrame_cnt (h : Byte) (s : State) : (startFrame h s).cnt = 0#8 := by
  simp [startFrame]

/-- The cleared count always leaves room for the header byte, in any FSM state. -/
theorem exec_hdrSof_expLen (h : Byte) (s : State) :
    ∃ t, exec (.hdrSof h) s = .next t ∧ t.expLen = decodeLength h := by
  obtain ⟨t, hnext, hlen⟩ := dataAction_expLen (v := h) (s := startFrame h s) (by simp)
  exact ⟨t, hnext, hlen.trans (startFrame_expLen h s)⟩

theorem exec_hdrBad (v : Byte) (s : State) :
    exec (.hdrBad v) s = .next (emitAnn .sofMalformed v s) :=
  congrArg Host.Outcome.next (raiseError_malformedHeader s v)

/-! ## The obligations -/

/-- Settles O18: the value and its bounds follow from `decodeLength_toNat`, and `exec_hdrSof_expLen` carries the
value through the re-dispatch of the header byte. -/
theorem lengthDecoderGivesThePayloadPlusThree : Obligations.LengthDecoderGivesThePayloadPlusThree := by
  intro h s hvalid
  have hlt : h.toNat < 256 := h.isLt
  have hlen := decodeLength_toNat hvalid
  exact ⟨rfl, hlen, by omega, by omega, exec_hdrSof_expLen h s⟩

/-- Settles O20: the report of a malformed header is one annotation, whose label has the inline-error category. -/
theorem hdrBadOnlyReportsAnInlineError : Obligations.HdrBadOnlyReportsAnInlineError :=
  fun v s => exec_hdrBad v s

end Sys2Proof.Machine
end

section
/-! PROOFS. The checksum handler's frame-level outputs: validity, classification, the structured record and the
raw frame (43_checksum.md R81 to R86). -/

namespace Sys2Proof.Machine

open Sys2Proof.Safety

/-! ## What `CKSUM` adds and where it leads -/

/-- The events `CKSUM` adds, in the handler's order (43_checksum.md R81); `execCksum_eq` ties them to the handler. -/
def cksumEvents (c : Byte) (s : State) : List Event :=
  [.ann s.inp.start s.inp.stop .control .checksum c,
    if s.sum = c then .record s.fstart s.fend s.destId s.srcId (frameSlice s 3)
    else .ann s.inp.start s.inp.stop .inlineError .checksumInvalid c,
    .bin s.fstart s.inp.stop (roleOfSource s.srcId) (frameSlice s 0 ++ [c])] ++
  (if s.dumpHdrDone then [] else [.dumpHdr s.fstart s.inp.stop]) ++
  [.dumpRow s.fstart s.inp.stop (roleOfSource s.srcId) s.srcId s.destId (frameSlice s 3) (decide (s.sum = c))]

/-- The state `CKSUM` completes the frame from, in any FSM state: its emissions write the validity flag, the dump
header flag and the events (43_checksum.md R82 to R88). -/
theorem execCksum_eq {c : Byte} {s : State} (h : s.cnt.toNat ≤ 130) :
    execCksum c s = .next (completeFrame { s with
      csValid := decide (s.sum = c)
      dumpHdrDone := true
      events := s.events ++ cksumEvents c s }) := by
  have hslice : ∀ a t, t.buf = s.buf → t.cnt = s.cnt → t.resets = s.resets →
      frameSlice t a = frameSlice s a := fun a t hb hc hr => frameSlice_of_eq hb hc hr a
  rw [execCksum_of_le h, reportValidity_eq, emitDumpHeaderOnce_eq]
  simp only [emitRawFrame, emitDumpRow, emitAnn, emit, hslice, cksumEvents, List.append_assoc,
    List.cons_append, List.nil_append]
  rfl

@[simp] theorem completeFrame_csValid (s : State) : (completeFrame s).csValid = s.csValid := by
  simp [completeFrame]

@[simp] theorem completeFrame_events (s : State) : (completeFrame s).events = s.events := by
  simp [completeFrame]

/-- The outputs of the checksum handler: the validity flag and the added events. -/
theorem exec_cksum_outputs (c : Byte) {s : State} (h : s.cnt.toNat ≤ 130) :
    ∃ t, exec (.cksum c) s = .next t ∧ t.csValid = decide (s.sum = c) ∧
      t.events = s.events ++ cksumEvents c s :=
  ⟨_, execCksum_eq h, by simp, by simp⟩

/-! ## The invariant in `Checksum` -/

/-- In `Checksum` the accumulator holds the whole frame before its checksum byte (10_state.md R27 item 3). -/
theorem cnt_of_inv_checksum {s : State} (hinv : Inv s) (hst : s.st = .checksum) :
    s.cnt = s.expLen ∧ 3 ≤ s.cnt.toNat ∧ s.cnt.toNat ≤ 130 := by
  obtain ⟨hfull, hthree⟩ := hinv.checksumFull hst
  rw [hfull]
  refine ⟨rfl, hthree, ?_⟩
  rcases hinv.expLenLegal with hzero | ⟨-, hmax⟩
  · simp [hzero]
  · exact hmax

/-- The running sum matches the checksum byte exactly when the untruncated sum does modulo 256
(43_checksum.md R90). -/
theorem bufSum_eq_iff (s : State) (n : Nat) (c : Byte) :
    bufSum s n = c ↔ exactSum ((List.range n).map (bufRead s)) % 256 = c.toNat := by
  rw [← BitVec.toNat_inj, bufSum, BitVec.toNat_ofNat]

/-- A slice from the header on is every entry below `cnt`. -/
theorem frameSlice_zero (s : State) : frameSlice s 0 = (List.range s.cnt.toNat).map (bufRead s) := by
  rw [frameSlice, List.range_eq_range', Nat.sub_zero]

/-! ## The role of a frame -/

theorem roleOfSource_eq_tester_iff (src : Byte) :
    roleOfSource src = .tester ↔ 0xF0 ≤ src.toNat ∧ src.toNat ≤ 0xFD := by
  simp [roleOfSource, BitVec.le_def]

theorem roleTag_eq (role : Role) : roleTag role = if role = .tester then 0 else 1 := by
  cases role <;> rfl

/-! ## The added events by kind -/

/-- The one raw frame `CKSUM` adds. -/
theorem bin_mem_cksumEvents {c : Byte} {s : State} {a b : Pos} {r : Role} {bs : List Byte} :
    .bin a b r bs ∈ cksumEvents c s ↔
      a = s.fstart ∧ b = s.inp.stop ∧ r = roleOfSource s.srcId ∧ bs = frameSlice s 0 ++ [c] := by
  by_cases hsum : s.sum = c <;> by_cases hdone : s.dumpHdrDone <;> simp [cksumEvents, hsum, hdone]

/-- The one dump row `CKSUM` adds. -/
theorem dumpRow_mem_cksumEvents {c : Byte} {s : State} {a b : Pos} {r : Role} {src dest : Byte}
    {payload : List Byte} {valid : Bool} :
    .dumpRow a b r src dest payload valid ∈ cksumEvents c s ↔
      a = s.fstart ∧ b = s.inp.stop ∧ r = roleOfSource s.srcId ∧ src = s.srcId ∧ dest = s.destId ∧
        payload = frameSlice s 3 ∧ valid = decide (s.sum = c) := by
  by_cases hsum : s.sum = c <;> by_cases hdone : s.dumpHdrDone <;> simp [cksumEvents, hsum, hdone]

theorem onChannel_append (ch : Channel) (xs ys : List Event) :
    onChannel ch (xs ++ ys) = onChannel ch xs ++ onChannel ch ys :=
  List.filter_append ..

/-- On the structured channel `CKSUM` adds the record of a valid frame and nothing else. -/
theorem onChannel_structured_cksumEvents (c : Byte) (s : State) :
    onChannel .structured (cksumEvents c s) =
      if s.sum = c then [.record s.fstart s.fend s.destId s.srcId (frameSlice s 3)] else [] := by
  by_cases hsum : s.sum = c <;> by_cases hdone : s.dumpHdrDone <;>
    simp [cksumEvents, onChannel, eventChannel, hsum, hdone]

/-- Under the tags 0 and 1 `CKSUM` adds the raw frame and nothing else. -/
theorem filter_frameTag_cksumEvents (c : Byte) (s : State) :
    (cksumEvents c s).filter (fun e => decide (eventTag e = some 0 ∨ eventTag e = some 1)) =
      [.bin s.fstart s.inp.stop (roleOfSource s.srcId) (frameSlice s 0 ++ [c])] := by
  have htag : roleTag (roleOfSource s.srcId) = 0 ∨ roleTag (roleOfSource s.srcId) = 1 := by
    cases roleOfSource s.srcId
    · exact .inl rfl
    · exact .inr rfl
  by_cases hsum : s.sum = c <;> by_cases hdone : s.dumpHdrDone <;>
    simp [cksumEvents, eventTag, hsum, hdone, htag]

/-! ## The obligations -/

/-- Settles O28: the flag compares the running sum, which the invariant says is the frame's sum modulo 256. -/
theorem frameIsValidIffItsSumMatches : Obligations.FrameIsValidIffItsSumMatches := by
  intro c s hinv hst
  obtain ⟨hfull, -, hmax⟩ := cnt_of_inv_checksum hinv hst
  obtain ⟨t, hnext, hvalid, -⟩ := exec_cksum_outputs c hmax
  have hreg : t.csValid = true ↔ s.sum = c := by rw [hvalid, decide_eq_true_iff]
  refine ⟨t, hnext, ?_, hreg⟩
  rw [hreg, hinv.sumIsBufferSum, bufSum_eq_iff, hfull]

/-- Settles O29: the raw frame and the dump row both take their role from `roleOfSource`, and no other event of
these kinds is added. -/
theorem testerIffSourceInTheRange : Obligations.TesterIffSourceInTheRange := by
  intro c s hmax
  obtain ⟨t, hnext, -, hevents⟩ := exec_cksum_outputs c hmax
  refine ⟨t, hnext, roleOfSource s.srcId, roleOfSource_eq_tester_iff _,
    fun _ _ _ => congrArg some (roleTag_eq _), ?_, ?_, ?_, ?_⟩
  · exact ⟨_, _, _, hevents ▸ List.mem_append_right _ (bin_mem_cksumEvents.mpr ⟨rfl, rfl, rfl, rfl⟩)⟩
  · exact ⟨_, _, _, _, _, _, hevents ▸ List.mem_append_right _
      (dumpRow_mem_cksumEvents.mpr ⟨rfl, rfl, rfl, rfl, rfl, rfl, rfl⟩)⟩
  · intro a b r bs hmem
    rw [hevents, List.mem_append] at hmem
    exact hmem.imp_right fun hadded => (bin_mem_cksumEvents.mp hadded).2.2.1
  · intro a b r x y p v hmem
    rw [hevents, List.mem_append] at hmem
    exact hmem.imp_right fun hadded => (dumpRow_mem_cksumEvents.mp hadded).2.2.1

/-- Settles O30: the record is the only structured event and comes with the flag; the invariant ties the
identifiers to entries 1 and 2 and bounds the payload. -/
theorem recordForValidFramesOnly : Obligations.RecordForValidFramesOnly := by
  intro c s hinv hst
  obtain ⟨hfull, hthree, hmax⟩ := cnt_of_inv_checksum hinv hst
  obtain ⟨t, hnext, hvalid, hevents⟩ := exec_cksum_outputs c hmax
  have hdest : s.destId = bufRead s 1 := hinv.destIsSecond (by omega)
  have hsrc : s.srcId = bufRead s 2 := hinv.srcIsThird hthree
  refine ⟨t, hnext, ?_, by rw [← hfull]; omega, by omega⟩
  rw [hevents, onChannel_append, onChannel_structured_cksumEvents, hvalid, ← hdest, ← hsrc]
  simp only [decide_eq_true_eq, frameSlice]

/-- Settles O31: the raw frame is added whatever the flag says, and the slice before the checksum byte is the whole
accumulator, `exp_len` entries by the invariant. -/
theorem rawRecordForEveryFrame : Obligations.RawRecordForEveryFrame := by
  intro c s hinv hst
  obtain ⟨hfull, hthree, hmax⟩ := cnt_of_inv_checksum hinv hst
  obtain ⟨t, hnext, -, hevents⟩ := exec_cksum_outputs c hmax
  have hlen : (frameSlice s 0 ++ [c]).length = s.cnt.toNat + 1 := by simp
  refine ⟨t, frameSlice s 0 ++ [c], roleOfSource s.srcId, hnext, ?_, ?_, by omega, by omega,
    roleOfSource_eq_tester_iff _, ?_⟩
  · rw [frameSlice_zero, hfull]
  · rw [hlen, hfull]
  · rw [hevents, List.filter_append, filter_frameTag_cksumEvents]

end Sys2Proof.Machine
end

section
/-! PROOFS. The handlers as whole next states, each in the FSM state its row belongs to, and from them every case
of a step (40_fsm.md R60). -/

namespace Sys2Proof.Machine

open Sys2Proof.Safety

/-! ## The next states -/

/-- After `HDR_SOF` in `Header` (41_header.md R69); `execHdrSof_of_header` ties it to the handler. -/
@[simps] def frameStarted (h : Byte) (s : State) : State :=
  { s with
    st := .data
    expLen := decodeLength h
    cnt := 1#8
    sum := h
    buf := cellSet s.buf 0 h
    events := s.events ++ [.ann s.inp.start s.inp.stop .control .header h] }

/-- After `DATA` in `Data` (42_data.md R73); `dataAction_of_data` ties it to the handler. -/
@[simps] def byteAppended (v : Byte) (s : State) : State :=
  { s with
    buf := cellSet s.buf s.cnt.toNat v
    cnt := s.cnt + 1#8
    sum := s.sum + v
    destId := if s.cnt.toNat + 1 = 2 then v else s.destId
    fstart := if s.cnt.toNat + 1 = 2 then s.inp.start else s.fstart
    srcId := if s.cnt.toNat + 1 = 3 then v else s.srcId
    fend := if s.cnt.toNat + 1 = s.expLen.toNat then s.inp.stop else s.fend
    st := if s.cnt.toNat + 1 = s.expLen.toNat then .checksum else .data
    events := s.events ++
      [if s.cnt.toNat + 1 = 1 then .ann s.inp.start s.inp.stop .control .header v
       else if s.cnt.toNat + 1 = 2 then .ann s.inp.start s.inp.stop .control .destination v
       else if s.cnt.toNat + 1 = 3 then .ann s.inp.start s.inp.stop .control .source v
       else .ann s.inp.start s.inp.stop .data .data v] }

/-- After `CKSUM` in `Checksum` (43_checksum.md R81); `execCksum_of_checksum` ties it to the handler. -/
@[simps] def frameCompleted (c : Byte) (s : State) : State :=
  { s with
    st := .header
    cnt := 0#8
    sum := 0#8
    csValid := decide (s.sum = c)
    dumpHdrDone := true
    events := s.events ++ cksumEvents c s }

/-- After `ERR_BYTE` in `Error` (44_error_and_nondata.md R92); `execErrByte_of_error` ties it to the handler. -/
@[simps] def errorReported (v : Byte) (s : State) : State :=
  { s with
    st := if s.errAutoExit then .header else .error
    events := s.events ++ [.ann s.inp.start s.inp.stop .error .error v] }

/-- After `RESET` (40_fsm.md R67); `execReset_eq` ties it to the row. -/
@[simps] def resetDone (s : State) : State :=
  { forgetUnspecified s with
    st := .header
    expLen := 0#8
    cnt := 0#8
    sum := 0#8
    csValid := false
    dumpHdrDone := false
    cmdAck := false }

/-! ## The handlers answer them -/

theorem execReset_eq (s : State) : execReset s = .next (resetDone s) := rfl

/-- The annotation of the byte appended at entry `cnt`: the position class is read off the count. -/
theorem classifyByte_events_append {v : Byte} {s : State} (h : s.cnt.toNat < 130) :
    (classifyByte v { s with buf := cellSet s.buf s.cnt.toNat v, cnt := s.cnt + 1#8, sum := s.sum + v }).events =
      (byteAppended v s).events := by
  rw [classifyByte_events, byteAppended_events, positionClass_succ h]
  by_cases h0 : s.cnt.toNat = 0
  · simp [h0]
  by_cases h1 : s.cnt.toNat = 1
  · simp [h1]
  by_cases h2 : s.cnt.toNat = 2
  · simp [h2]
  · simp [h0, h1, h2]

/-- The position of an appended byte is the second or the third exactly by the count before it. -/
theorem positionClass_append {cnt : Byte} (h : cnt.toNat < 130) :
    (positionClass (cnt + 1#8) = .destination ↔ cnt.toNat + 1 = 2) ∧
    (positionClass (cnt + 1#8) = .source ↔ cnt.toNat + 1 = 3) := by
  rw [positionClass_succ h]
  constructor
  · split_ifs <;> simp <;> omega
  · split_ifs <;> simp <;> omega

theorem dataAction_of_data {v : Byte} {s : State} (hst : s.st = .data) (h : s.cnt.toNat < 130) :
    dataAction v s = .next (byteAppended v s) := by
  obtain ⟨hdest, hsrc⟩ := positionClass_append h
  rw [dataAction_of_lt h, endOfData_of_data (by rw [classifyByte_eq]; exact hst), classifyByte_eq]
  simp only [classifyByte_events_append h, hdest, hsrc, cnt_succ_eq_iff h]
  rfl

/-- The header byte is the first data byte of a frame of at least three, so it never ends the data. -/
theorem execHdrSof_of_header {h : Byte} {s : State} (hst : s.st = .header) (hvalid : 0x80 ≤ h.toNat) :
    execHdrSof h s = .next (frameStarted h s) := by
  have hstart : startFrame h s = { s with st := .data, expLen := decodeLength h, cnt := 0#8, sum := 0#8 } :=
    goTo_of_allowed (by simp [hst, allowed])
  have hlen : ¬ 1 = (decodeLength h).toNat := by rw [decodeLength_toNat hvalid]; omega
  rw [execHdrSof, hstart, dataAction_of_data rfl (by simp)]
  simp [byteAppended, frameStarted, hlen]

theorem execCksum_of_checksum {c : Byte} {s : State} (hst : s.st = .checksum) (h : s.cnt.toNat ≤ 130) :
    execCksum c s = .next (frameCompleted c s) := by
  rw [execCksum_eq h]
  exact congrArg Host.Outcome.next (completeFrame_of_checksum hst)

theorem execErrByte_of_error {v : Byte} {s : State} (hst : s.st = .error) :
    execErrByte v s = .next (errorReported v s) := by
  by_cases hauto : s.errAutoExit
  · simp [execErrByte, errorReported, hauto, goTo_of_allowed (T := .header) (s := emitAnn .error v s)
      (by simp [hst, allowed]), labelCategory]
  · simp [execErrByte, errorReported, hauto, emitAnn, emit, ← hst, labelCategory]

/-! ## The cases of a step -/

/-- The states a step can answer: a reset; else the command's effect alone, or with the row that handles the data
byte in the FSM state the command left. `step_eq_next_iff` ties it to `step`. -/
inductive StepsTo (s : State) : State → Prop where
  | reset (hrst : (nextInput s).rst = true) : StepsTo s (resetDone (started s))
  | idle {st' : FsmState} {ack : Bool} (hrst : (nextInput s).rst = false)
      (hcmd : CommandEffect (nextInput s).cmd s.st st' ack) (hbyte : carriesByte (nextInput s) = false) :
      StepsTo s (commanded s st' ack)
  | header {ack : Bool} (hrst : (nextInput s).rst = false)
      (hcmd : CommandEffect (nextInput s).cmd s.st .header ack) (hbyte : carriesByte (nextInput s) = true)
      (hvalid : 0x80 ≤ (nextInput s).value.toNat) :
      StepsTo s (frameStarted (nextInput s).value (commanded s .header ack))
  | malformed {ack : Bool} (hrst : (nextInput s).rst = false)
      (hcmd : CommandEffect (nextInput s).cmd s.st .header ack) (hbyte : carriesByte (nextInput s) = true)
      (hbad : ¬ 0x80 ≤ (nextInput s).value.toNat) :
      StepsTo s (emitAnn .sofMalformed (nextInput s).value (commanded s .header ack))
  | data {ack : Bool} (hrst : (nextInput s).rst = false)
      (hcmd : CommandEffect (nextInput s).cmd s.st .data ack) (hbyte : carriesByte (nextInput s) = true)
      (hroom : s.cnt.toNat < 130) :
      StepsTo s (byteAppended (nextInput s).value (commanded s .data ack))
  | checksum {ack : Bool} (hrst : (nextInput s).rst = false)
      (hcmd : CommandEffect (nextInput s).cmd s.st .checksum ack) (hbyte : carriesByte (nextInput s) = true)
      (hroom : s.cnt.toNat ≤ 130) :
      StepsTo s (frameCompleted (nextInput s).value (commanded s .checksum ack))
  | error {ack : Bool} (hrst : (nextInput s).rst = false)
      (hcmd : CommandEffect (nextInput s).cmd s.st .error ack) (hbyte : carriesByte (nextInput s) = true) :
      StepsTo s (errorReported (nextInput s).value (commanded s .error ack))

/-- A command has one effect. -/
theorem CommandEffect.unique {cmd : BitVec 2} {st st₁ st₂ : FsmState} {ack₁ ack₂ : Bool}
    (h₁ : CommandEffect cmd st st₁ ack₁) (h₂ : CommandEffect cmd st st₂ ack₂) : st₁ = st₂ ∧ ack₁ = ack₂ := by
  cases h₁ with
  | none hToError hToHeader =>
    cases h₂ with
    | none => exact ⟨rfl, rfl⟩
    | toHeader hcmd hst => rcases hToHeader hcmd with rfl | rfl <;> simp at hst
    | toError hcmd => exact absurd hcmd hToError
  | toHeader hcmd hst =>
    cases h₂ with
    | none _ hToHeader => rcases hToHeader hcmd with rfl | rfl <;> simp at hst
    | toHeader => exact ⟨rfl, rfl⟩
    | toError hcmd' => simp [hcmd] at hcmd'
  | toError hcmd =>
    cases h₂ with
    | none hToError _ => exact absurd hcmd hToError
    | toHeader hcmd' _ => simp [hcmd] at hcmd'
    | toError => exact ⟨rfl, rfl⟩

/-- A command leads into `Data` only from `Data`, without effect: only `Header` and `Error` are targets. -/
theorem CommandEffect.of_data {cmd : BitVec 2} {st : FsmState} {ack : Bool}
    (h : CommandEffect cmd st .data ack) : st = .data ∧ ack = false ∧ cmd ≠ 0b10#2 := by
  cases h with
  | none hToError _ => exact ⟨rfl, rfl, hToError⟩

/-- A command leads into `Checksum` only from `Checksum`, without effect, and so it is none or the reserved one. -/
theorem CommandEffect.of_checksum {cmd : BitVec 2} {st : FsmState} {ack : Bool}
    (h : CommandEffect cmd st .checksum ack) :
    st = .checksum ∧ ack = false ∧ (cmd = 0b00#2 ∨ cmd = 0b11#2) := by
  cases h with
  | none hToError hToHeader =>
    have hcodes : ∀ c : BitVec 2, c ≠ 0b10#2 → c ≠ 0b01#2 → c = 0b00#2 ∨ c = 0b11#2 := by decide
    exact ⟨rfl, rfl, hcodes cmd hToError (fun h => by simpa using hToHeader h)⟩

/-- The handler of a data byte in the FSM state it meets (40_fsm.md section 1); `step_of_byte` ties it to the
step. -/
def handleByte (v : Byte) (s : State) : Result :=
  match s.st with
  | .header => if 0x80 ≤ v.toNat then execHdrSof v s else execHdrBad v s
  | .data => execData v s
  | .checksum => execCksum v s
  | .error => execErrByte v s

section
variable {v : Byte} {s : State}

theorem handleByte_of_valid_header (hst : s.st = .header) (hvalid : 0x80 ≤ v.toNat) :
    handleByte v s = .next (frameStarted v s) := by
  simp [handleByte, hst, hvalid, execHdrSof_of_header]

theorem handleByte_of_malformed_header (hst : s.st = .header) (hbad : ¬ 0x80 ≤ v.toNat) :
    handleByte v s = .next (emitAnn .sofMalformed v s) := by
  simp [handleByte, hst, hbad, execHdrBad]

theorem handleByte_of_data (hst : s.st = .data) : handleByte v s = dataAction v s := by
  simp [handleByte, hst, execData]

theorem handleByte_of_checksum (hst : s.st = .checksum) : handleByte v s = execCksum v s := by
  simp [handleByte, hst]

theorem handleByte_of_error (hst : s.st = .error) : handleByte v s = .next (errorReported v s) := by
  simp [handleByte, hst, execErrByte_of_error]

end

section
variable {s : State} {st' : FsmState} {ack : Bool} (hrst : (nextInput s).rst = false)
  (hcmd : CommandEffect (nextInput s).cmd s.st st' ack)
include hrst hcmd

theorem step_of_no_byte (hbyte : carriesByte (nextInput s) = false) :
    step s = .next (commanded s st' ack) := by
  obtain ⟨st₁, ack₁, hcmd₁, ⟨-, hstep⟩ | ⟨hbyte₁, -⟩⟩ := step_of_not_rst hrst
  · obtain ⟨rfl, rfl⟩ := hcmd.unique hcmd₁
    exact hstep
  · simp [hbyte] at hbyte₁

theorem step_of_byte (hbyte : carriesByte (nextInput s) = true) :
    step s = handleByte (nextInput s).value (commanded s st' ack) := by
  obtain ⟨st₁, ack₁, hcmd₁, ⟨hbyte₁, -⟩ | ⟨-, hstep⟩⟩ := step_of_not_rst hrst
  · simp [hbyte] at hbyte₁
  · obtain ⟨rfl, rfl⟩ := hcmd.unique hcmd₁
    rw [hstep]
    cases st' <;> rfl

end

/-- Every command has an effect, whatever the state. -/
theorem exists_commandEffect (cmd : BitVec 2) (st : FsmState) : ∃ st' ack, CommandEffect cmd st st' ack := by
  by_cases hToError : cmd = 0b10#2
  · exact ⟨_, _, .toError hToError⟩
  by_cases hToHeader : cmd = 0b01#2
  · cases st with
    | header => exact ⟨_, _, .none hToError fun _ => .inl rfl⟩
    | data => exact ⟨_, _, .none hToError fun _ => .inr rfl⟩
    | checksum => exact ⟨_, _, .toHeader hToHeader (.inl rfl)⟩
    | error => exact ⟨_, _, .toHeader hToHeader (.inr rfl)⟩
  · exact ⟨_, _, .none hToError fun h => absurd h hToHeader⟩

theorem step_eq_of_stepsTo {s t : State} (h : StepsTo s t) : step s = .next t := by
  cases h with
  | reset hrst => exact step_of_rst hrst
  | idle hrst hcmd hbyte => exact step_of_no_byte hrst hcmd hbyte
  | header hrst hcmd hbyte hvalid =>
    rw [step_of_byte hrst hcmd hbyte, handleByte_of_valid_header (commanded_st ..) hvalid]
  | malformed hrst hcmd hbyte hbad =>
    rw [step_of_byte hrst hcmd hbyte, handleByte_of_malformed_header (commanded_st ..) hbad]
  | data hrst hcmd hbyte hroom =>
    rw [step_of_byte hrst hcmd hbyte, handleByte_of_data (commanded_st ..),
      dataAction_of_data (commanded_st ..) hroom]
  | checksum hrst hcmd hbyte hroom =>
    rw [step_of_byte hrst hcmd hbyte, handleByte_of_checksum (commanded_st ..),
      execCksum_of_checksum (commanded_st ..) hroom]
  | error hrst hcmd hbyte => rw [step_of_byte hrst hcmd hbyte, handleByte_of_error (commanded_st ..)]

/-- A state in which a frame in progress fits the accumulator. -/
def FrameFits (s : State) : Prop :=
  (s.st = .data → s.cnt.toNat < 130) ∧ (s.st = .checksum → s.cnt.toNat ≤ 130)

/-- A step from a state whose frame fits the accumulator has one of the cases. -/
theorem exists_stepsTo {s : State} (hfits : FrameFits s) : ∃ t, StepsTo s t := by
  cases hrst : (nextInput s).rst
  case true => exact ⟨_, .reset hrst⟩
  obtain ⟨st', ack, hcmd⟩ := exists_commandEffect (nextInput s).cmd s.st
  cases hbyte : carriesByte (nextInput s)
  case false => exact ⟨_, .idle hrst hcmd hbyte⟩
  cases st' with
  | header =>
    by_cases hvalid : 0x80 ≤ (nextInput s).value.toNat
    · exact ⟨_, .header hrst hcmd hbyte hvalid⟩
    · exact ⟨_, .malformed hrst hcmd hbyte hvalid⟩
  | data => exact ⟨_, .data hrst hcmd hbyte (hfits.1 hcmd.of_data.1)⟩
  | checksum => exact ⟨_, .checksum hrst hcmd hbyte (hfits.2 hcmd.of_checksum.1)⟩
  | error => exact ⟨_, .error hrst hcmd hbyte⟩

/-- A step that answers a next state is one of the cases: the handlers' own checks give the room they need. -/
theorem stepsTo_of_step {s t : State} (h : step s = .next t) : StepsTo s t := by
  cases hrst : (nextInput s).rst
  case true =>
    obtain rfl := Host.Outcome.next.inj ((step_of_rst hrst).symm.trans h)
    exact .reset hrst
  obtain ⟨st', ack, hcmd⟩ := exists_commandEffect (nextInput s).cmd s.st
  cases hbyte : carriesByte (nextInput s)
  case false =>
    obtain rfl := Host.Outcome.next.inj ((step_of_no_byte hrst hcmd hbyte).symm.trans h)
    exact .idle hrst hcmd hbyte
  rw [step_of_byte hrst hcmd hbyte] at h
  cases st' with
  | header =>
    by_cases hvalid : 0x80 ≤ (nextInput s).value.toNat
    · rw [handleByte_of_valid_header (commanded_st ..) hvalid] at h
      obtain rfl := Host.Outcome.next.inj h
      exact .header hrst hcmd hbyte hvalid
    · rw [handleByte_of_malformed_header (commanded_st ..) hvalid] at h
      obtain rfl := Host.Outcome.next.inj h
      exact .malformed hrst hcmd hbyte hvalid
  | data =>
    rw [handleByte_of_data (commanded_st ..)] at h
    have hroom : (commanded s .data ack).cnt.toNat < 130 := dataAction_next_lt h
    rw [dataAction_of_data (commanded_st ..) hroom] at h
    obtain rfl := Host.Outcome.next.inj h
    exact .data hrst hcmd hbyte hroom
  | checksum =>
    rw [handleByte_of_checksum (commanded_st ..)] at h
    have hroom : (commanded s .checksum ack).cnt.toNat ≤ 130 := execCksum_next_le h
    rw [execCksum_of_checksum (commanded_st ..) hroom] at h
    obtain rfl := Host.Outcome.next.inj h
    exact .checksum hrst hcmd hbyte hroom
  | error =>
    rw [handleByte_of_error (commanded_st ..)] at h
    obtain rfl := Host.Outcome.next.inj h
    exact .error hrst hcmd hbyte

/-- What a step can do, in both directions. -/
theorem step_eq_next_iff {s t : State} : step s = .next t ↔ StepsTo s t :=
  ⟨stepsTo_of_step, step_eq_of_stepsTo⟩

end Sys2Proof.Machine
end

section
/-! PROOFS. The invariant of 10_state.md R27: every step keeps it, and from it every step answers a next state. -/

namespace Sys2Proof.Machine

open Sys2Proof.Safety

/-- A command keeps the FSM state or leaves the frame. -/
theorem CommandEffect.keeps_or_leaves {cmd : BitVec 2} {st st' : FsmState} {ack : Bool}
    (h : CommandEffect cmd st st' ack) : st' = st ∨ st' = .header ∨ st' = .error := by
  cases h with
  | none => exact .inl rfl
  | toHeader => exact .inr (.inl rfl)
  | toError => exact .inr (.inr rfl)

theorem not_inFrame_of_header_or_error {s : State} (h : s.st = .header ∨ s.st = .error) : ¬ InFrame s := by
  rcases h with h | h <;> simp [InFrame, h]

/-- The invariant reads the accumulator and five registers, and the FSM state only inside a frame. -/
theorem inv_congr {s t : State} (h : Inv s) (hbuf : t.buf = s.buf) (hresets : t.resets = s.resets)
    (hlen : t.expLen = s.expLen) (hcnt : t.cnt = s.cnt) (hsum : t.sum = s.sum) (hdest : t.destId = s.destId)
    (hsrc : t.srcId = s.srcId) (hst : t.st = s.st ∨ ¬ InFrame t) : Inv t := by
  have hread : ∀ i, bufRead t i = bufRead s i := bufRead_congr hbuf hresets
  exact {
    bufWf := hbuf ▸ h.bufWf
    cntLeExpLen := by rw [hcnt, hlen]; exact h.cntLeExpLen
    expLenLegal := hlen ▸ h.expLenLegal
    dataRange := fun ht => by
      rcases hst with hst | hout
      · rw [hcnt, hlen]; exact h.dataRange (hst ▸ ht)
      · exact absurd (.inl ht) hout
    checksumFull := fun ht => by
      rcases hst with hst | hout
      · rw [hcnt, hlen]; exact h.checksumFull (hst ▸ ht)
      · exact absurd (.inr ht) hout
    sumIsBufferSum := by rw [hsum, hcnt, bufSum_congr fun i _ => hread i]; exact h.sumIsBufferSum
    entriesWritten := by rw [hcnt, hbuf]; exact h.entriesWritten
    destIsSecond := by rw [hcnt, hdest, hread]; exact h.destIsSecond
    srcIsThird := by rw [hcnt, hsrc, hread]; exact h.srcIsThird }

theorem inv_commanded {s : State} {cmd : BitVec 2} {st' : FsmState} {ack : Bool} (h : Inv s)
    (hcmd : CommandEffect cmd s.st st' ack) : Inv (commanded s st' ack) :=
  inv_congr h rfl rfl rfl rfl rfl rfl rfl (hcmd.keeps_or_leaves.imp_right not_inFrame_of_header_or_error)

/-- An empty accumulator in `Header` satisfies the invariant, whatever the identifiers and positions hold. -/
theorem inv_of_cleared {s : State} (hst : s.st = .header) (hbuf : s.buf = []) (hlen : s.expLen = 0#8)
    (hcnt : s.cnt = 0#8) (hsum : s.sum = 0#8) : Inv s where
  bufWf := by rw [hbuf]; rfl
  cntLeExpLen := by simp [hcnt]
  expLenLegal := .inl hlen
  dataRange := by simp [hst]
  checksumFull := by simp [hst]
  sumIsBufferSum := by rw [hsum, hcnt]; rfl
  entriesWritten := by simp [hcnt]
  destIsSecond := by simp [hcnt]
  srcIsThird := by simp [hcnt]

theorem inv_resetDone (s : State) : Inv (resetDone s) := inv_of_cleared rfl rfl rfl rfl rfl

/-- What an entry reads as after an append. -/
theorem bufRead_byteAppended (v : Byte) (s : State) (j : Nat) :
    bufRead (byteAppended v s) j = if j = s.cnt.toNat then v else bufRead s j :=
  bufRead_of_buf_eq_cellSet (byteAppended_buf ..) (byteAppended_resets ..) j

theorem bufRead_frameStarted (h : Byte) (s : State) (j : Nat) :
    bufRead (frameStarted h s) j = if j = 0 then h else bufRead s j :=
  bufRead_of_buf_eq_cellSet (frameStarted_buf ..) (frameStarted_resets ..) j

/-- The header byte alone is a frame of one byte, whatever frame stood there before. -/
theorem inv_frameStarted {h : Byte} {s : State} (hwf : Memory.wf s.buf = true) (hvalid : 0x80 ≤ h.toNat) :
    Inv (frameStarted h s) := by
  have hlen := decodeLength_toNat hvalid
  have hbyte : h.toNat < 256 := h.isLt
  exact {
    bufWf := wf_cellSet h (by decide) hwf
    cntLeExpLen := by simp [hlen]
    expLenLegal := .inr (by simp only [frameStarted_expLen]; omega)
    dataRange := fun _ => by simp [hlen]
    checksumFull := nofun
    sumIsBufferSum := by simp [bufSum_succ _ 0, bufSum_zero, bufRead_frameStarted]
    entriesWritten := fun i hi => by
      obtain rfl : i = 0 := by simpa using hi
      simp [cellGet_cellSet_self]
    destIsSecond := fun hcnt => by simp at hcnt
    srcIsThird := fun hcnt => by simp at hcnt }

/-- In `Data` the accumulator has room, since the frame is longer than what has come. -/
theorem cnt_lt_of_inv_data {s : State} (h : Inv s) (hst : s.st = .data) :
    1 ≤ s.cnt.toNat ∧ s.cnt.toNat < s.expLen.toNat ∧ s.expLen.toNat ≤ 130 := by
  obtain ⟨hpos, hlt⟩ := h.dataRange hst
  refine ⟨hpos, hlt, ?_⟩
  rcases h.expLenLegal with hzero | ⟨-, hmax⟩
  · simp [hzero] at hlt
  · exact hmax

theorem inv_byteAppended {v : Byte} {s : State} (h : Inv s) (hst : s.st = .data) : Inv (byteAppended v s) := by
  obtain ⟨hpos, hlt, hmax⟩ := cnt_lt_of_inv_data h hst
  have hcnt : (byteAppended v s).cnt.toNat = s.cnt.toNat + 1 := cnt_succ_toNat (by omega)
  have hread := bufRead_byteAppended v s
  have hbelow : ∀ i, i < s.cnt.toNat → bufRead (byteAppended v s) i = bufRead s i := fun i hi => by
    rw [hread, if_neg (by omega)]
  exact {
    bufWf := wf_cellSet v (by simp [Config.bufDepth]; omega) h.bufWf
    cntLeExpLen := by rw [hcnt]; exact hlt
    expLenLegal := h.expLenLegal
    dataRange := fun hdata => by
      rw [hcnt]
      simp only [byteAppended_st, byteAppended_expLen] at hdata ⊢
      split at hdata
      · simp at hdata
      · omega
    checksumFull := fun hchecksum => by
      simp only [byteAppended_st] at hchecksum
      split at hchecksum
      · next hfull =>
        refine ⟨BitVec.eq_of_toNat_eq (hcnt.trans hfull), ?_⟩
        rcases h.expLenLegal with hzero | ⟨hmin, -⟩
        · simp [hzero] at hlt
        · exact hmin
      · simp at hchecksum
    sumIsBufferSum := by
      rw [hcnt, bufSum_succ, bufSum_congr hbelow, hread, if_pos rfl, ← h.sumIsBufferSum]
      rfl
    entriesWritten := fun i hi => by
      rw [byteAppended_buf, cellGet_cellSet]
      split
      · rfl
      · exact h.entriesWritten i (by omega)
    destIsSecond := fun htwo => by
      rw [byteAppended_destId, hread]
      by_cases hdest : s.cnt.toNat = 1
      · simp [hdest]
      · rw [if_neg (by omega), if_neg (by omega)]
        exact h.destIsSecond (by omega)
    srcIsThird := fun hthree => by
      rw [byteAppended_srcId, hread]
      by_cases hsrc : s.cnt.toNat = 2
      · simp [hsrc]
      · rw [if_neg (by omega), if_neg (by omega)]
        exact h.srcIsThird (by omega) }

/-- A completed frame leaves nothing below `cnt`, so only the form and the length are claimed. -/
theorem inv_frameCompleted {c : Byte} {s : State} (h : Inv s) : Inv (frameCompleted c s) where
  bufWf := h.bufWf
  cntLeExpLen := Nat.zero_le _
  expLenLegal := h.expLenLegal
  dataRange := nofun
  checksumFull := nofun
  sumIsBufferSum := rfl
  entriesWritten := nofun
  destIsSecond := nofun
  srcIsThird := nofun

theorem errorReported_not_inFrame (v : Byte) (s : State) : ¬ InFrame (errorReported v s) := by
  apply not_inFrame_of_header_or_error
  rw [errorReported_st]
  split
  · exact .inl rfl
  · exact .inr rfl

/-- Settles O43: each case of a step is one of the writes above, on the state the command left. -/
theorem everyStepKeepsTheInvariant : Obligations.EveryStepKeepsTheInvariant := by
  intro s t h hstep
  cases stepsTo_of_step hstep with
  | reset => exact inv_resetDone _
  | idle _ hcmd _ => exact inv_commanded h hcmd
  | header _ hcmd _ hvalid => exact inv_frameStarted h.bufWf hvalid
  | malformed _ hcmd _ _ =>
    exact inv_congr h rfl rfl rfl rfl rfl rfl rfl (.inr (not_inFrame_of_header_or_error (.inl rfl)))
  | data _ hcmd _ _ => exact inv_byteAppended (inv_commanded h hcmd) rfl
  | checksum _ hcmd _ _ => exact inv_frameCompleted (inv_commanded h hcmd)
  | error _ hcmd _ => exact inv_congr h rfl rfl rfl rfl rfl rfl rfl (.inr (errorReported_not_inFrame _ _))

/-- Settles O44: the reset state is cleared, with nothing listed. -/
theorem resetStateSatisfiesTheInvariant : Obligations.ResetStateSatisfiesTheInvariant :=
  ⟨inv_of_cleared rfl rfl rfl rfl rfl, rfl, rfl⟩

theorem frameFits_of_inv {s : State} (h : Inv s) : FrameFits s := by
  constructor
  · intro hst
    obtain ⟨-, hlt, hmax⟩ := cnt_lt_of_inv_data h hst
    omega
  · exact fun hst => (cnt_of_inv_checksum h hst).2.2

/-- Settles O45: the invariant keeps a frame in progress within the accumulator, where no access stops. -/
theorem noErrorIsFatal : Obligations.NoErrorIsFatal := by
  intro s h
  obtain ⟨t, ht⟩ := exists_stepsTo (frameFits_of_inv h)
  exact ⟨t, step_eq_of_stepsTo ht⟩

/-- Settles O46: without the two commands no step leaves a frame but by completing it, which clears `cnt`. -/
theorem headerIsEmptyWithoutCommands : Obligations.HeaderIsEmptyWithoutCommands := by
  intro s t h ⟨hnotError, hempty⟩ hinput hstep
  have hkept : ∀ {st' ack}, (nextInput s).rst = false → CommandEffect (nextInput s).cmd s.st st' ack →
      st' = s.st := by
    intro st' ack hrst hcmd
    obtain ⟨hToHeader, hToError⟩ := hinput.resolve_left (by simp [hrst])
    cases hcmd with
    | none => rfl
    | toHeader hcode => exact absurd hcode hToHeader
    | toError hcode => exact absurd hcode hToError
  cases stepsTo_of_step hstep with
  | reset => exact ⟨by simp, fun _ => rfl⟩
  | idle hrst hcmd _ => rw [hkept hrst hcmd]; exact ⟨hnotError, hempty⟩
  | header => exact ⟨by simp, by simp⟩
  | malformed hrst hcmd _ _ => exact ⟨by simp, fun _ => hempty (hkept hrst hcmd).symm⟩
  | data =>
    constructor <;> rw [byteAppended_st] <;> split <;> simp
  | checksum => exact ⟨by simp, fun _ => rfl⟩
  | error hrst hcmd _ => exact absurd (hkept hrst hcmd).symm hnotError

end Sys2Proof.Machine
end

section
/-! PROOFS. Hidden contents never reach an output, and a reset makes the block fresh (10_state.md R26, R27;
70_reset_and_hazards.md R108). -/

namespace Sys2Proof.Machine

open Sys2Proof.Safety

/-! ## States that match between the operations of a step -/

/-- Two states in the middle of a step that agree on what is visible, on the ports and on the outputs so far. -/
structure Matched (s t : State) : Prop extends SameVisible s t where
  inp : s.inp = t.inp
  cmdAck : s.cmdAck = t.cmdAck
  events : s.events = t.events

theorem Matched.outputs_eq {s t : State} (h : Matched s t) : outputs s = outputs t := by
  rw [outputs, outputs, stOut, stOut, h.st, h.cmdAck, h.events]

theorem nextInput_eq_of_sameVisible {s t : State} (h : SameVisible s t) : nextInput s = nextInput t := by
  rw [nextInput, nextInput, h.pending]

/-- Outside a frame only the FSM state, the dump header flag, the parameter and the inputs are visible. -/
theorem sameVisible_of_not_inFrame {s t : State} (hout : ¬ InFrame s) (hst : s.st = t.st)
    (hdump : s.dumpHdrDone = t.dumpHdrDone) (hauto : s.errAutoExit = t.errAutoExit)
    (hpending : s.pending = t.pending) : SameVisible s t where
  st := hst
  dumpHdrDone := hdump
  errAutoExit := hauto
  pending := hpending
  expLen := fun h => absurd h hout
  cnt := fun h => absurd h hout
  sum := fun h => absurd h hout
  entries := fun h => absurd h hout
  destId := fun h => absurd h hout
  fstart := fun h => absurd h hout
  srcId := fun h => absurd h hout
  fend := fun h => absurd (.inr h) hout

theorem matched_resetDone {s t : State} (h : SameVisible s t) :
    Matched (resetDone (started s)) (resetDone (started t)) where
  toSameVisible := sameVisible_of_not_inFrame (not_inFrame_of_header_or_error (.inl rfl)) rfl rfl h.errAutoExit
    (congrArg List.tail h.pending)
  inp := nextInput_eq_of_sameVisible h
  cmdAck := rfl
  events := rfl

theorem matched_commanded {s t : State} {cmd : BitVec 2} {st' : FsmState} {ack : Bool} (h : SameVisible s t)
    (hcmd : CommandEffect cmd s.st st' ack) : Matched (commanded s st' ack) (commanded t st' ack) where
  toSameVisible := by
    have hpending : s.pending.tail = t.pending.tail := congrArg List.tail h.pending
    rcases hcmd.keeps_or_leaves with rfl | hleft
    · exact { h with st := rfl, pending := hpending }
    · exact sameVisible_of_not_inFrame (not_inFrame_of_header_or_error hleft) rfl h.dumpHdrDone h.errAutoExit
        hpending
  inp := nextInput_eq_of_sameVisible h
  cmdAck := rfl
  events := rfl

theorem matched_emitAnn {s t : State} (l : Label) (v : Byte) (h : Matched s t) :
    Matched (emitAnn l v s) (emitAnn l v t) :=
  { h with events := by rw [emitAnn_events, emitAnn_events, h.events, h.inp] }

theorem matched_frameStarted {s t : State} (v : Byte) (h : Matched s t) :
    Matched (frameStarted v s) (frameStarted v t) where
  st := rfl
  dumpHdrDone := h.dumpHdrDone
  errAutoExit := h.errAutoExit
  pending := h.pending
  expLen := fun _ => rfl
  cnt := fun _ => rfl
  sum := fun _ => rfl
  entries := fun _ i hi => by
    obtain rfl : i = 0 := by simpa using hi
    rw [bufRead_frameStarted, bufRead_frameStarted, if_pos rfl, if_pos rfl]
  destId := fun _ hcnt => by simp at hcnt
  fstart := fun _ hcnt => by simp at hcnt
  srcId := fun _ hcnt => by simp at hcnt
  fend := nofun
  inp := h.inp
  cmdAck := h.cmdAck
  events := by rw [frameStarted_events, frameStarted_events, h.events, h.inp]

theorem matched_byteAppended {s t : State} (v : Byte) (h : Matched s t) (hst : s.st = .data)
    (hroom : s.cnt.toNat < 130) : Matched (byteAppended v s) (byteAppended v t) := by
  have hframe : InFrame s := .inl hst
  have hcnt := h.cnt hframe
  have hlen := h.expLen hframe
  have hsucc : (byteAppended v s).cnt.toNat = s.cnt.toNat + 1 := cnt_succ_toNat hroom
  exact {
    st := by rw [byteAppended_st, byteAppended_st, hcnt, hlen]
    dumpHdrDone := h.dumpHdrDone
    errAutoExit := h.errAutoExit
    pending := h.pending
    expLen := fun _ => hlen
    cnt := fun _ => by rw [byteAppended_cnt, byteAppended_cnt, hcnt]
    sum := fun _ => by rw [byteAppended_sum, byteAppended_sum, h.sum hframe]
    entries := fun _ i hi => by
      rw [bufRead_byteAppended, bufRead_byteAppended, ← hcnt]
      split
      · rfl
      · exact h.entries hframe i (by omega)
    destId := fun _ htwo => by
      rw [byteAppended_destId, byteAppended_destId, ← hcnt]
      split
      · rfl
      · exact h.destId hframe (by omega)
    fstart := fun _ htwo => by
      rw [byteAppended_fstart, byteAppended_fstart, ← hcnt, h.inp]
      split
      · rfl
      · exact h.fstart hframe (by omega)
    srcId := fun _ hthree => by
      rw [byteAppended_srcId, byteAppended_srcId, ← hcnt]
      split
      · rfl
      · exact h.srcId hframe (by omega)
    fend := fun hchecksum => by
      have hfull : s.cnt.toNat + 1 = s.expLen.toNat := by
        by_contra hopen
        simp [hopen] at hchecksum
      rw [byteAppended_fend, byteAppended_fend, ← hcnt, ← hlen, h.inp, if_pos hfull, if_pos hfull]
    inp := h.inp
    cmdAck := h.cmdAck
    events := by rw [byteAppended_events, byteAppended_events, h.events, h.inp, hcnt] }

/-- The frame-level events read the entries below `cnt`, the identifiers and the positions of a whole frame. -/
theorem cksumEvents_of_matched {s t : State} (c : Byte) (h : Matched s t) (hst : s.st = .checksum)
    (hthree : 3 ≤ s.cnt.toNat) : cksumEvents c s = cksumEvents c t := by
  have hframe : InFrame s := .inr hst
  have hslice : ∀ a, frameSlice s a = frameSlice t a := fun a =>
    (frameSlice_congr (h.cnt hframe).symm (fun i hi => (h.entries hframe i hi).symm) a).symm
  simp only [cksumEvents, hslice, h.inp, h.sum hframe, h.dumpHdrDone, h.fend hst, h.srcId hframe hthree,
    h.destId hframe (by omega), h.fstart hframe (by omega)]

theorem matched_frameCompleted {s t : State} (c : Byte) (h : Matched s t) (hst : s.st = .checksum)
    (hthree : 3 ≤ s.cnt.toNat) : Matched (frameCompleted c s) (frameCompleted c t) where
  toSameVisible := sameVisible_of_not_inFrame (not_inFrame_of_header_or_error (.inl rfl)) rfl rfl h.errAutoExit
    h.pending
  inp := h.inp
  cmdAck := h.cmdAck
  events := by
    rw [frameCompleted_events, frameCompleted_events, h.events, cksumEvents_of_matched c h hst hthree]

theorem matched_errorReported {s t : State} (v : Byte) (h : Matched s t) :
    Matched (errorReported v s) (errorReported v t) where
  toSameVisible := sameVisible_of_not_inFrame (errorReported_not_inFrame v s)
    (by rw [errorReported_st, errorReported_st, h.errAutoExit]) h.dumpHdrDone h.errAutoExit h.pending
  inp := h.inp
  cmdAck := h.cmdAck
  events := by rw [errorReported_events, errorReported_events, h.events, h.inp]

/-! ## The steps of two such states -/

/-- Two states that agree on what is visible take the same case of a step, to states that match. -/
theorem stepsTo_of_sameVisible {s t s' : State} (hinv : Inv s) (h : SameVisible s t) (hstep : StepsTo s s') :
    ∃ t', StepsTo t t' ∧ Matched s' t' := by
  have hinput := nextInput_eq_of_sameVisible h
  have heffect : ∀ {st' ack}, CommandEffect (nextInput s).cmd s.st st' ack →
      CommandEffect (nextInput t).cmd t.st st' ack := fun hcmd => hinput ▸ h.st ▸ hcmd
  cases hstep with
  | reset hrst => exact ⟨_, .reset (hinput ▸ hrst), matched_resetDone h⟩
  | idle hrst hcmd hbyte =>
    exact ⟨_, .idle (hinput ▸ hrst) (heffect hcmd) (hinput ▸ hbyte), matched_commanded h hcmd⟩
  | header hrst hcmd hbyte hvalid =>
    refine ⟨_, .header (hinput ▸ hrst) (heffect hcmd) (hinput ▸ hbyte) (hinput ▸ hvalid), ?_⟩
    rw [hinput]
    exact matched_frameStarted _ (matched_commanded h hcmd)
  | malformed hrst hcmd hbyte hbad =>
    refine ⟨_, .malformed (hinput ▸ hrst) (heffect hcmd) (hinput ▸ hbyte) (hinput ▸ hbad), ?_⟩
    rw [hinput]
    exact matched_emitAnn _ _ (matched_commanded h hcmd)
  | data hrst hcmd hbyte hroom =>
    have hcnt : s.cnt = t.cnt := h.cnt (.inl hcmd.of_data.1)
    refine ⟨_, .data (hinput ▸ hrst) (heffect hcmd) (hinput ▸ hbyte) (hcnt ▸ hroom), ?_⟩
    rw [hinput]
    exact matched_byteAppended _ (matched_commanded h hcmd) rfl hroom
  | checksum hrst hcmd hbyte hroom =>
    have hst : s.st = .checksum := hcmd.of_checksum.1
    have hcnt : s.cnt = t.cnt := h.cnt (.inr hst)
    refine ⟨_, .checksum (hinput ▸ hrst) (heffect hcmd) (hinput ▸ hbyte) (hcnt ▸ hroom), ?_⟩
    rw [hinput]
    exact matched_frameCompleted _ (matched_commanded h hcmd) rfl (cnt_of_inv_checksum hinv hst).2.1
  | error hrst hcmd hbyte =>
    refine ⟨_, .error (hinput ▸ hrst) (heffect hcmd) (hinput ▸ hbyte), ?_⟩
    rw [hinput]
    exact matched_errorReported _ (matched_commanded h hcmd)

/-- Settles O47: matching states have the same outputs and agree on what is visible. -/
theorem hiddenStateNeverReachesAnOutput : Obligations.HiddenStateNeverReachesAnOutput := by
  intro s t s' hinv _ h hstep
  obtain ⟨t', hstep', hmatched⟩ := stepsTo_of_sameVisible hinv h (stepsTo_of_step hstep)
  exact ⟨t', step_eq_of_stepsTo hstep', hmatched.outputs_eq, hmatched.toSameVisible⟩

/-! ## Runs -/

theorem run_succ_of_step {s t : State} (h : step s = .next t) (k : Nat) :
    Host.Core.run core (k + 1) s = Host.Core.run core k t := by
  have hcore : core.step s = .next t := h
  simp only [Host.Core.run, hcore]

/-- Runs of two states that agree on what is visible keep their outputs equal: induction on O47's step. -/
theorem run_of_sameVisible (k : Nat) {s t : State} (hs : Inv s) (ht : Inv t) (h : SameVisible s t)
    (houtputs : outputs s = outputs t) :
    ∃ s' t', Host.Core.run core k s = .next s' ∧ Host.Core.run core k t = .next t' ∧ outputs s' = outputs t' := by
  induction k generalizing s t with
  | zero => exact ⟨s, t, rfl, rfl, houtputs⟩
  | succ k ih =>
    obtain ⟨s₁, hs₁⟩ := noErrorIsFatal s hs
    obtain ⟨t₁, ht₁, houtputs₁, h₁⟩ := hiddenStateNeverReachesAnOutput s t s₁ hs ht h hs₁
    rw [run_succ_of_step hs₁, run_succ_of_step ht₁]
    exact ih (everyStepKeepsTheInvariant s s₁ hs hs₁) (everyStepKeepsTheInvariant t t₁ ht ht₁) h₁ houtputs₁

/-- Settles O48: the state a reset step leaves and the reset state agree on all that is visible. -/
theorem resetMakesTheBlockFresh : Obligations.ResetMakesTheBlockFresh := by
  intro s k hrst
  have hstep : step s = .next (resetDone (started s)) := step_eq_of_stepsTo (.reset hrst)
  rw [run_succ_of_step hstep]
  exact run_of_sameVisible k (inv_resetDone _) (inv_of_cleared rfl rfl rfl rfl rfl)
    (sameVisible_of_not_inFrame (not_inFrame_of_header_or_error (.inl rfl)) rfl rfl rfl rfl) rfl

end Sys2Proof.Machine
end

section
/-! PROOFS. The keys and their bytes: each decoder and its encoder are each other's inverse, and the opcode table
covers every key once (30_encoding.md sections 2, 3 and 6). -/

namespace Sys2Proof.Machine

open Sys2Proof.Safety

/-! ## Instructions and keys -/

/-- The four fields of a BYTE key make it up again (30_encoding.md R43). -/
theorem byteKeyOf_of_fields (k : BitVec 12) :
    byteKeyOf (stateOfCode (k.extractLsb' 10 2)) (k.getLsbD 9) (k.getLsbD 8) (k.extractLsb' 0 8) = k := by
  have hcode : ∀ c : BitVec 2, stateCode (stateOfCode c) = c := by decide
  apply BitVec.eq_of_getLsbD_eq
  intro j hj
  simp only [byteKeyOf, hcode, BitVec.getLsbD_or, BitVec.getLsbD_extractLsb', fieldAt_getLsbD, ofBool_getLsbD]
  have : j < 8 ∨ j = 8 ∨ j = 9 ∨ j = 10 ∨ j = 11 := by omega
  rcases this with h | rfl | rfl | rfl | rfl
  · have : ¬ 8 ≤ j ∧ ¬ 9 ≤ j ∧ ¬ 10 ≤ j := by omega
    simp [this, h, hj]
  all_goals simp

theorem exists_byteKeyOf (k : BitVec 12) :
    ∃ st valid isData v, k = byteKeyOf st valid isData v :=
  ⟨_, _, _, _, (byteKeyOf_of_fields k).symm⟩

theorem wf_hdrSof_iff (v : Byte) : (Instr.hdrSof v).wf = true ↔ 0x80 ≤ v.toNat := by
  rw [Instr.wf, header_bit, decide_eq_true_iff]

theorem wf_hdrBad_iff (v : Byte) : (Instr.hdrBad v).wf = true ↔ ¬ 0x80 ≤ v.toNat := by
  rw [Instr.wf, header_bit, Bool.not_eq_true', decide_eq_false_iff_not]

/-- Decoding undoes encoding: the key's fields name the row, and bit 7 of a header byte its kind. -/
theorem decodeKey_encodeKey {i : Instr} (hwf : i.wf = true) : decodeKey (encodeKey i) = i := by
  cases i with
  | nop | ignore | data | cksum | errByte => exact decodeByteKey_byteKeyOf ..
  | hdrSof v =>
    refine (decodeByteKey_byteKeyOf ..).trans ?_
    simp [(wf_hdrSof_iff v).mp hwf]
  | hdrBad v =>
    refine (decodeByteKey_byteKeyOf ..).trans ?_
    simp [(wf_hdrBad_iff v).mp hwf]
  | reset c => exact decodeCmdKey_fields true c
  | cmdNone | cmdToHeader | cmdToError | cmdRsvd => rfl

/-- Encoding undoes decoding of a BYTE key, whose row carries the fields it does not fix. -/
theorem encodeKey_decodeByteKey (k : BitVec 12) :
    (decodeByteKey k).wf = true ∧ encodeKey (decodeByteKey k) = .byte k := by
  obtain ⟨st, valid, isData, v, rfl⟩ := exists_byteKeyOf k
  rw [decodeByteKey_byteKeyOf]
  cases valid with
  | false => exact ⟨rfl, rfl⟩
  | true =>
    cases isData with
    | false => exact ⟨rfl, rfl⟩
    | true =>
      cases st with
      | data | checksum | error => exact ⟨rfl, rfl⟩
      | header =>
        by_cases hvalid : 0x80 ≤ v.toNat
        · simp only [hvalid, Bool.true_eq_false, if_false, if_true]
          exact ⟨(wf_hdrSof_iff v).mpr hvalid, rfl⟩
        · simp only [hvalid, Bool.true_eq_false, if_false]
          exact ⟨(wf_hdrBad_iff v).mpr hvalid, rfl⟩

/-- Settles O2: BYTE keys by their fields, CMD keys one by one. -/
theorem encodeOfDecodeIsTheKey : Obligations.EncodeOfDecodeIsTheKey := by
  intro key
  cases key with
  | byte k => exact encodeKey_decodeByteKey k
  | cmd c => revert c; decide

/-! ## Keys and bytes -/

/-- The format a key's bytes are decoded in. -/
def keyFormat : Key → Format
  | .byte _ => .byte
  | .cmd _ => .cmd

theorem formatOf_eq (i : Instr) : formatOf i = keyFormat (encodeKey i) := by cases i <;> rfl

/-- The bytes of a BYTE key: no padding bit is set, and together they are the key. -/
theorem byteKey_bytes (k : BitVec 12) :
    ((k.extractLsb' 8 4).setWidth 8).extractLsb' 4 4 = 0#4 ∧
    fieldAt 12 8 ((k.extractLsb' 8 4).setWidth 8) ||| fieldAt 12 0 (k.extractLsb' 0 8) = k := by
  constructor
  · apply BitVec.eq_of_getLsbD_eq
    intro j hj
    simp [BitVec.getLsbD_extractLsb', BitVec.getLsbD_setWidth]
  · apply BitVec.eq_of_getLsbD_eq
    intro j hj
    simp only [BitVec.getLsbD_or, fieldAt_getLsbD, BitVec.getLsbD_setWidth, BitVec.getLsbD_extractLsb']
    by_cases hlow : j < 8
    · have : ¬ 8 ≤ j := by omega
      simp [this, hlow, hj]
    · have : 8 ≤ j ∧ j - 8 < 4 ∧ j - 8 < 8 ∧ 8 + (j - 8) = j := by omega
      simp [this, hlow, hj]

theorem decodeBytes_keyBytes (key : Key) (rest : List Byte) :
    decodeBytes (keyFormat key) (keyBytes key ++ rest) = .ok (decodeKey key, rest) := by
  cases key with
  | byte k =>
    obtain ⟨hpadding, hkey⟩ := byteKey_bytes k
    simp only [keyFormat, keyBytes, List.cons_append, List.nil_append, decodeBytes, hpadding, hkey, if_true]
    rfl
  | cmd c =>
    have hbyte : (c.setWidth 8).extractLsb' 3 5 = 0#5 ∧ (c.setWidth 8).extractLsb' 0 3 = c := by
      revert c; decide
    simp only [keyFormat, keyBytes, List.cons_append, List.nil_append, decodeBytes, hbyte, if_true]
    rfl

/-- Settles O1: the bytes give the key back and the key the instruction. -/
theorem decodeOfEncodeIsTheInstruction : Obligations.DecodeOfEncodeIsTheInstruction := by
  intro i rest hwf
  rw [formatOf_eq, encodeBytes, decodeBytes_keyBytes, decodeKey_encodeKey hwf]

/-- Settles O4: each word is decoded by evaluation. -/
theorem tableWordsDecodeToTheirRows : Obligations.TableWordsDecodeToTheirRows :=
  ⟨by decide, by decide, by decide, by decide, by decide, by decide, by decide⟩

/-- A byte that needs more than its low `n` bits has a padding bit set. -/
theorem padding_ne_zero {b : Byte} {n m : Nat} (hm : n + m = 8) (h : 2 ^ n ≤ b.toNat) :
    b.extractLsb' n m ≠ 0#m := by
  have hlt : b.toNat / 2 ^ n < 2 ^ m := by
    rw [Nat.div_lt_iff_lt_mul (by positivity), ← Nat.pow_add, Nat.add_comm, hm]
    exact b.isLt
  have hpos : 0 < b.toNat / 2 ^ n := Nat.div_pos h (by positivity)
  intro hzero
  have hnat := congrArg BitVec.toNat hzero
  rw [BitVec.extractLsb'_toNat, Nat.shiftRight_eq_div_pow, Nat.mod_eq_of_lt hlt] at hnat
  simp at hnat
  omega

/-- Settles O5: a list too short by its constructor, a padding bit by `padding_ne_zero`. -/
theorem shortAndPaddedBytesAreRefused : Obligations.ShortAndPaddedBytesAreRefused :=
  ⟨rfl, rfl, fun _ => rfl, fun _ _ _ h => if_neg (padding_ne_zero (n := 4) rfl h),
    fun _ _ h => if_neg (padding_ne_zero (n := 3) rfl h)⟩

/-! ## The opcode table -/

/-- A row's mask looks at no bit of a BYTE key below bit 7. -/
def masksHighBits (row : OpRow) : Bool :=
  match row.mask with
  | .byte m => 0xF80#12 &&& m == m
  | .cmd _ => true

theorem masksHighBits_of_mem : ∀ row ∈ opcodeTable, masksHighBits row = true := by decide

theorem rowMatches_byte_congr {row : OpRow} {k k' : BitVec 12} (hrow : row ∈ opcodeTable)
    (h : k &&& 0xF80#12 = k' &&& 0xF80#12) : rowMatches row (.byte k) = rowMatches row (.byte k') := by
  have hmask := masksHighBits_of_mem row hrow
  obtain ⟨name, pattern, mask⟩ := row
  cases mask with
  | cmd m => cases pattern <;> rfl
  | byte m =>
    cases pattern with
    | cmd p => rfl
    | byte p =>
      have hm : 0xF80#12 &&& m = m := by simpa [masksHighBits] using hmask
      simp only [rowMatches]
      rw [← hm, ← BitVec.and_assoc, h, BitVec.and_assoc]

/-- The bits of a BYTE key that the rows look at: its three upper fields and bit 7 of the value. -/
theorem byteKeyOf_and_mask (st : FsmState) (valid isData : Bool) (v : Byte) :
    byteKeyOf st valid isData v &&& 0xF80#12 = byteKeyOf st valid isData (v &&& 0x80#8) &&& 0xF80#12 := by
  have hvalue : fieldAt 12 0 v &&& 0xF80#12 = fieldAt 12 0 (v &&& 0x80#8) &&& 0xF80#12 := by revert v; decide
  simp only [byteKeyOf, BitVec.and_or_distrib_right, hvalue]

/-- The rows that match a BYTE key whose value has no bit but bit 7: 32 keys, each by evaluation. -/
theorem matchingRows_of_high_bit (st : FsmState) (valid isData : Bool) :
    ∀ b ∈ [0x00#8, 0x80#8],
      (opcodeTable.filter (fun row => rowMatches row (.byte (byteKeyOf st valid isData b)))).map OpRow.mnemonic =
        [mnemonicOf (decodeByteKey (byteKeyOf st valid isData b))] := by
  cases st <;> cases valid <;> cases isData <;> decide

/-- The name of the decoded instruction depends on the value by bit 7 only. -/
theorem mnemonicOf_decodeByteKey (st : FsmState) (valid isData : Bool) (v : Byte) :
    mnemonicOf (decodeByteKey (byteKeyOf st valid isData v)) =
      mnemonicOf (decodeByteKey (byteKeyOf st valid isData (v &&& 0x80#8))) := by
  have hbit : 0x80 ≤ (v &&& 0x80#8).toNat ↔ 0x80 ≤ v.toNat := by revert v; decide
  rw [decodeByteKey_byteKeyOf, decodeByteKey_byteKeyOf]
  cases valid with
  | false => rfl
  | true =>
    cases isData with
    | false => rfl
    | true =>
      cases st with
      | data | checksum | error => rfl
      | header => by_cases hvalid : 0x80 ≤ v.toNat <;> simp [hbit, hvalid, mnemonicOf, -BitVec.toNat_and]

/-- Settles O3: no row looks below bit 7 of a BYTE key, so 32 of them stand for all. -/
theorem exactlyOneTableRowMatchesAKey : Obligations.ExactlyOneTableRowMatchesAKey := by
  intro key
  cases key with
  | byte k =>
    obtain ⟨st, valid, isData, v, rfl⟩ := exists_byteKeyOf k
    have hbit : v &&& 0x80#8 ∈ [0x00#8, 0x80#8] := by revert v; decide
    rw [List.filter_congr fun row hrow => rowMatches_byte_congr hrow (byteKeyOf_and_mask st valid isData v),
      matchingRows_of_high_bit st valid isData _ hbit, ← mnemonicOf_decodeByteKey]
    rfl
  | cmd c => revert c; decide

/-! ## Input words and the keys of a step -/

/-- The fields of an input word read back (30_encoding.md R41). -/
theorem inputWord_fields (i : Input) :
    (inputWord i).getLsbD 12 = i.rst ∧ (inputWord i).extractLsb' 10 2 = i.cmd ∧
    (inputWord i).getLsbD 9 = i.valid ∧ (inputWord i).getLsbD 8 = i.isData ∧
    (inputWord i).extractLsb' 0 8 = i.value := by
  have hbit : ∀ j, (inputWord i).getLsbD j = _ := fun j => by
    simp only [inputWord, BitVec.getLsbD_or, fieldAt_getLsbD, ofBool_getLsbD]
    exact rfl
  refine ⟨?_, ?_, ?_, ?_, ?_⟩
  · simp [hbit, -BitVec.getLsbD_eq_getElem]
  · apply BitVec.eq_of_getLsbD_eq
    intro j hj
    rw [BitVec.getLsbD_extractLsb', hbit]
    have : j = 0 ∨ j = 1 := by omega
    rcases this with rfl | rfl <;> simp
  · simp [hbit, -BitVec.getLsbD_eq_getElem]
  · simp [hbit, -BitVec.getLsbD_eq_getElem]
  · apply BitVec.eq_of_getLsbD_eq
    intro j hj
    rw [BitVec.getLsbD_extractLsb', hbit]
    have : ¬ 8 ≤ j ∧ ¬ 9 ≤ j ∧ ¬ 10 ≤ j ∧ ¬ 12 ≤ j ∧ j < 13 := by omega
    simp [this, hj]

/-- Packing what was unpacked: each bit of the word lies in one field. -/
theorem inputWord_inputOfWord (iw : BitVec 13) (a b : Pos) : inputWord (inputOfWord iw a b) = iw := by
  apply BitVec.eq_of_getLsbD_eq
  intro j hj
  simp only [inputWord, inputOfWord, BitVec.getLsbD_or, BitVec.getLsbD_extractLsb', fieldAt_getLsbD,
    ofBool_getLsbD]
  have : j < 8 ∨ j = 8 ∨ j = 9 ∨ j = 10 ∨ j = 11 ∨ j = 12 := by omega
  rcases this with h | rfl | rfl | rfl | rfl | rfl
  · have : ¬ 8 ≤ j ∧ ¬ 9 ≤ j ∧ ¬ 10 ≤ j ∧ ¬ 12 ≤ j := by omega
    simp [this, h, hj]
  all_goals simp

/-- Settles O6: the fields of the word, and the word of the fields. -/
theorem inputWordRoundTrips : Obligations.InputWordRoundTrips := by
  refine ⟨fun i => ?_, inputWord_inputOfWord⟩
  obtain ⟨hrst, hcmd, hvalid, hdata, hvalue⟩ := inputWord_fields i
  simp only [inputOfWord, hrst, hcmd, hvalid, hdata, hvalue]

/-- Settles O8: the two keys by their fields, each decoded to its row. -/
theorem keysSelectTheRowsOfTheStep : Obligations.KeysSelectTheRowsOfTheStep := by
  intro i st
  constructor
  · rw [decodeKey, cmdKey_eq]
    exact decodeCmdKey_fields i.rst i.cmd
  · rw [byteKey_eq]
    refine (decodeByteKey_byteKeyOf ..).trans ?_
    cases st <;> rfl

/-! ## Placed table words -/

/-- The input a placed table word puts in front. -/
theorem nextInput_withFetchWord (s : State) (nbits w : Nat) :
    nextInput (s.withFetchWord nbits w) =
      if nbits ≤ 8 then inputOfWord (fieldAt 13 10 (BitVec.ofNat 3 w)) 0 0
      else inputOfWord (fieldAt 13 0 (BitVec.ofNat 10 w)) 0 0 := by
  unfold State.withFetchWord placeTableWord
  split <;> rfl

/-- Settles O9: a placed word is unpacked and packed again, and the keys are its fields. -/
theorem placedTableWordIsTheNextKey : Obligations.PlacedTableWordIsTheNextKey := by
  intro s k c
  have hbyte : nextInput (s.withFetchWord 16 k.toNat) = inputOfWord (fieldAt 13 0 (BitVec.ofNat 10 k.toNat)) 0 0 :=
    nextInput_withFetchWord s 16 k.toNat
  have hcmd : nextInput (s.withFetchWord 8 c.toNat) = inputOfWord (fieldAt 13 10 c) 0 0 := by
    rw [nextInput_withFetchWord, BitVec.ofNat_toNat, BitVec.setWidth_eq]
    rfl
  have hst : (s.withFetchWord 16 k.toNat).st = stateOfCode (k.extractLsb' 10 2) := by
    simp [State.withFetchWord, placeTableWord]
  have hcode : ∀ c : BitVec 2, stateCode (stateOfCode c) = c := by decide
  rw [hbyte, hcmd, hst]
  simp only [byteKey, cmdKey, inputWord_inputOfWord, hcode]
  refine ⟨?_, ?_, ?_, ?_, rfl⟩
  · apply BitVec.eq_of_getLsbD_eq
    intro j hj
    simp only [BitVec.getLsbD_or, fieldAt_getLsbD, BitVec.getLsbD_extractLsb', BitVec.ofNat_toNat,
      BitVec.getLsbD_setWidth]
    have : j < 10 ∨ j = 10 ∨ j = 11 := by omega
    rcases this with h | rfl | rfl
    · have : ¬ 10 ≤ j ∧ j < 13 := by omega
      simp [this, h, hj]
    all_goals simp
  · apply BitVec.eq_of_getLsbD_eq
    intro j hj
    simp [BitVec.getLsbD_extractLsb', fieldAt_getLsbD]
  · clear hcmd; revert c; decide
  · clear hcmd; revert c; decide

end Sys2Proof.Machine
end

section
/-! PROOFS. What `CKSUM` adds on each channel, and the frame rows of the table as whole next states (41_header.md,
42_data.md, 43_checksum.md, 44_error_and_nondata.md). -/

namespace Sys2Proof.Machine

open Sys2Proof.Safety

/-! ## The channels of a checksum step -/

theorem onChannel_annotation_cksumEvents (c : Byte) (s : State) :
    onChannel .annotation (cksumEvents c s) =
      .ann s.inp.start s.inp.stop .control .checksum c ::
        (if s.sum = c then [] else [.ann s.inp.start s.inp.stop .inlineError .checksumInvalid c]) := by
  by_cases hsum : s.sum = c <;> by_cases hdone : s.dumpHdrDone <;>
    simp [cksumEvents, onChannel, eventChannel, hsum, hdone]

theorem onChannel_rawBinary_cksumEvents (c : Byte) (s : State) :
    onChannel .rawBinary (cksumEvents c s) =
      [.bin s.fstart s.inp.stop (roleOfSource s.srcId) (frameSlice s 0 ++ [c])] ++
      (if s.dumpHdrDone then [] else [.dumpHdr s.fstart s.inp.stop]) ++
      [.dumpRow s.fstart s.inp.stop (roleOfSource s.srcId) s.srcId s.destId (frameSlice s 3)
        (decide (s.sum = c))] := by
  by_cases hsum : s.sum = c <;> by_cases hdone : s.dumpHdrDone <;>
    simp [cksumEvents, onChannel, eventChannel, hsum, hdone]

/-- Settles O26: the handler's next state, and its events channel by channel. -/
theorem cksumEmitsTheFrameAndReturnsToHeader : Obligations.CksumEmitsTheFrameAndReturnsToHeader :=
  fun c s hst hmax => ⟨cksumEvents c s, execCksum_of_checksum hst hmax, onChannel_annotation_cksumEvents c s,
    onChannel_structured_cksumEvents c s, onChannel_rawBinary_cksumEvents c s⟩

/-- Settles O32: the events are added whatever the FSM state. -/
theorem rawBinaryChannelOfACompletedFrame : Obligations.RawBinaryChannelOfACompletedFrame := by
  intro c s hmax
  obtain ⟨t, hnext, hvalid, hevents⟩ := exec_cksum_outputs c hmax
  refine ⟨t, hnext, ?_⟩
  rw [hevents, onChannel_append, onChannel_rawBinary_cksumEvents, hvalid, frameSlice_zero]
  simp only [frameSlice, List.append_assoc]

/-- Settles O27: after the emissions completion clears `cnt` and `sum` and tries its transition. -/
theorem cksumKeepsTheAccumulator : Obligations.CksumKeepsTheAccumulator := by
  intro c s t hnext
  obtain rfl := Host.Outcome.next.inj ((execCksum_eq (execCksum_next_le hnext)).symm.trans hnext)
  refine ⟨bufRead_congr ?_ ?_, ?_⟩ <;> simp [completeFrame]

/-! ## The validity of a frame with one entry changed -/

/-- The sum of the entries tells apart two accumulators that differ in one entry. -/
theorem bufSum_ne_of_one_entry {s t : State} {i n : Nat} (hi : i < n) (hdiff : bufRead t i ≠ bufRead s i)
    (hsame : ∀ j, j < n → j ≠ i → bufRead t j = bufRead s j) : bufSum t n ≠ bufSum s n := by
  induction n with
  | zero => omega
  | succ n ih =>
    rw [bufSum_succ, bufSum_succ]
    by_cases hlast : i = n
    · subst hlast
      rw [bufSum_congr fun j hj => hsame j (by omega) (by omega)]
      simpa using hdiff
    · rw [hsame n (by omega) (by omega)]
      simpa using ih (by omega) fun j hj => hsame j (by omega)

theorem xor_twoPow_ne {k : Nat} (hk : k < 8) (b : Byte) : b ^^^ BitVec.twoPow 8 k ≠ b := by
  intro h
  have hbit := congrArg (·.getLsbD k) h
  simp [hk] at hbit

/-- Settles O34: either flip makes the running sum differ from the checksum byte, which it matched. -/
theorem singleBitFlipInvalidatesAFrame : Obligations.SingleBitFlipInvalidatesAFrame := by
  intro s s' c i k hinv hinv' hst hst' hcnt hk _ hi hflip hsame t hnext hvalid
  obtain ⟨-, -, hmax⟩ := cnt_of_inv_checksum hinv hst
  obtain ⟨t₀, hnext₀, hvalid₀, -⟩ := exec_cksum_outputs c hmax
  obtain rfl := Host.Outcome.next.inj (hnext₀.symm.trans hnext)
  have hmatch : s.sum = c := by simpa [hvalid] using hvalid₀.symm
  constructor
  · have hsum : s'.sum ≠ c := by
      rw [← hmatch, hinv'.sumIsBufferSum, hinv.sumIsBufferSum, hcnt]
      exact bufSum_ne_of_one_entry hi (hflip ▸ xor_twoPow_ne hk _) hsame
    obtain ⟨t', hnext', hvalid', -⟩ := exec_cksum_outputs c (s := s') (hcnt ▸ hmax)
    exact ⟨t', hnext', by simp [hvalid', hsum]⟩
  · obtain ⟨t', hnext', hvalid', -⟩ := exec_cksum_outputs (c ^^^ BitVec.twoPow 8 k) hmax
    exact ⟨t', hnext', by simp [hvalid', hmatch, (xor_twoPow_ne hk c).symm]⟩

/-! ## The header, data and error handlers -/

/-- Settles O19: a valid header byte is at least `0x80`. -/
theorem hdrSofStartsAFrame : Obligations.HdrSofStartsAFrame :=
  fun h _ hwf hst => execHdrSof_of_header hst ((wf_hdrSof_iff h).mp hwf)

/-- Settles O21: the data action's next state in `Data`. -/
theorem dataAppendsClassifiesAndChecksTheEnd : Obligations.DataAppendsClassifiesAndChecksTheEnd :=
  fun _ _ hst hroom => dataAction_of_data hst hroom

/-- Settles O35: the error handler's next state in `Error`. -/
theorem errByteReportsAndStaysUnlessAutoExit : Obligations.ErrByteReportsAndStaysUnlessAutoExit :=
  fun _ _ hst => execErrByte_of_error hst

/-- The append is the only store of a data action, in any FSM state. -/
theorem dataAction_stores {v : Byte} {s t : State} (h : dataAction v s = .next t) :
    t.buf = cellSet s.buf s.cnt.toNat v ∧ t.resets = s.resets := by
  obtain rfl := Host.Outcome.next.inj ((dataAction_of_lt (dataAction_next_lt h)).symm.trans h)
  rw [endOfData_frame, classifyByte_eq]
  exact ⟨rfl, rfl⟩

theorem bufRead_of_dataAction {v : Byte} {s t : State} (h : dataAction v s = .next t) (j : Nat) :
    bufRead t j = if j = s.cnt.toNat then v else bufRead s j :=
  bufRead_of_buf_eq_cellSet (dataAction_stores h).1 (dataAction_stores h).2 j

/-- Settles O22: both rows store by the one append, `HDR_SOF` after it cleared the count. -/
theorem appendsStoreOneEntryOnly : Obligations.AppendsStoreOneEntryOnly := by
  intro v s t
  constructor
  · intro h
    have hread := bufRead_of_dataAction h
    exact ⟨by rw [hread, if_pos rfl], fun a ha => by rw [hread, if_neg ha]⟩
  · intro h
    have hstart : ∀ a, bufRead (startFrame v s) a = bufRead s a :=
      bufRead_congr (by simp [startFrame]) (by simp [startFrame])
    have hread : ∀ j, bufRead t j = if j = 0 then v else bufRead s j := fun j => by
      rw [bufRead_of_dataAction (s := startFrame v s) h, startFrame_cnt, hstart]
      rfl
    exact ⟨by rw [hread, if_pos rfl], fun a ha => by rw [hread, if_neg ha]⟩

/-- Settles O23: a read after a write, and the write keeps the rising order. -/
theorem accumulatorReadsBackWhatWasWritten : Obligations.AccumulatorReadsBackWhatWasWritten := by
  intro s i v
  have hread := fun j => bufRead_bufWrite s i j v
  exact ⟨by rw [hread, if_pos rfl], fun j hj => by rw [hread, if_neg hj], fun hwf hi => wf_bufWrite v hi hwf⟩

/-- Settles O24: neither handler goes past its check of the index. -/
theorem missingEntriesStopTheAccess : Obligations.MissingEntriesStopTheAccess := by
  intro v s
  constructor
  · intro h
    show dataAction v s = _
    rw [dataAction, appendByte_of_ge h, andThen_fault]
  · exact execCksum_of_gt

end Sys2Proof.Machine
end

section
/-! PROOFS. Frames over a run: the count of the data bytes, and a whole frame from `Header` to `Header`
(41_header.md, 42_data.md, 43_checksum.md section 1; 30_encoding.md section 7). -/

namespace Sys2Proof.Machine

open Sys2Proof.Safety

/-! ## Single steps of a run -/

/-- What comes after the steps so far runs on from the state they led to. -/
theorem run_add {j : Nat} {s t : State} (h : Host.Core.run core j s = .next t) (k : Nat) :
    Host.Core.run core (j + k) s = Host.Core.run core k t := by
  induction j generalizing s with
  | zero =>
    obtain rfl : s = t := Host.Outcome.next.inj h
    rw [Nat.zero_add]
  | succ j ih =>
    cases hstep : step s with
    | next u =>
      rw [run_succ_of_step hstep] at h
      rw [Nat.succ_add, run_succ_of_step hstep]
      exact ih h
    | fault f =>
      have hcore : core.step s = .fault f := hstep
      simp [Host.Core.run, hcore] at h
    | refused f =>
      have hcore : core.step s = .refused f := hstep
      simp [Host.Core.run, hcore] at h

theorem nextInput_of_pending {s : State} {i : Input} {rest : List Input} (h : s.pending = i :: rest) :
    nextInput s = i := by
  rw [nextInput, h, List.headD_cons]

theorem CommandEffect.in_data {cmd : BitVec 2} {st : FsmState} (hst : st = .data) (hcmd : cmd ≠ 0b10#2) :
    CommandEffect cmd st .data false :=
  hst ▸ .none hcmd fun _ => .inr hst

theorem CommandEffect.no_command (st : FsmState) : CommandEffect 0b00#2 st st false :=
  .none (by decide) fun h => absurd h (by decide)

section
variable {s : State} (hst : s.st = .data) (hrst : (nextInput s).rst = false) (hcmd : (nextInput s).cmd ≠ 0b10#2)
include hst hrst hcmd

theorem step_in_data_of_no_byte (hbyte : carriesByte (nextInput s) = false) :
    step s = .next (commanded s .data false) :=
  step_eq_of_stepsTo (.idle hrst (.in_data hst hcmd) hbyte)

theorem step_in_data_of_byte (hbyte : carriesByte (nextInput s) = true) (hroom : s.cnt.toNat < 130) :
    step s = .next (byteAppended (nextInput s).value (commanded s .data false)) :=
  step_eq_of_stepsTo (.data hrst (.in_data hst hcmd) hbyte hroom)

end

/-! ## The frame-length law -/

theorem byteAppended_st_eq_checksum_iff (v : Byte) (s : State) :
    (byteAppended v s).st = .checksum ↔ s.cnt.toNat + 1 = s.expLen.toNat := by
  rw [byteAppended_st]
  split <;> simp [*]

theorem byteAppended_st_of_open (v : Byte) {s : State} (h : s.cnt.toNat + 1 ≠ s.expLen.toNat) :
    (byteAppended v s).st = .data :=
  if_neg h

/-- Settles O49: without a data byte the step keeps the frame, with one it appends. -/
theorem onlyDataBytesAdvanceAFrame : Obligations.OnlyDataBytesAdvanceAFrame := by
  intro s hinv hst hrst hcmd
  obtain ⟨-, hlt, hmax⟩ := cnt_lt_of_inv_data hinv hst
  cases hbyte : carriesByte (nextInput s) with
  | false => exact ⟨_, step_in_data_of_no_byte hst hrst hcmd hbyte, rfl, fun _ => ⟨rfl, rfl⟩, nofun⟩
  | true =>
    have hroom : s.cnt.toNat < 130 := by omega
    refine ⟨_, step_in_data_of_byte hst hrst hcmd hbyte hroom, rfl, nofun, fun _ => ⟨?_, ?_, ?_⟩⟩
    · exact cnt_succ_toNat hroom
    · exact byteAppended_st_eq_checksum_iff _ _
    · by_cases hfull : s.cnt.toNat + 1 = s.expLen.toNat
      · exact .inl ((byteAppended_st_eq_checksum_iff _ _).mpr hfull)
      · exact .inr (byteAppended_st_of_open _ hfull)

/-- While the data bytes are fewer than the frame needs, a run stays in `Data` and counts them. -/
theorem run_in_data (between : List Input) {s : State} {rest : List Input} (hst : s.st = .data)
    (hinputs : ∀ i ∈ between, i.rst = false ∧ i.cmd ≠ 0b10#2) (hpending : s.pending = between ++ rest)
    (hfew : s.cnt.toNat + between.countP carriesByte < s.expLen.toNat) (hmax : s.expLen.toNat ≤ 130) :
    ∃ t : State, Host.Core.run core between.length s = .next t ∧ t.st = .data ∧
      t.cnt.toNat = s.cnt.toNat + between.countP carriesByte ∧ t.expLen = s.expLen ∧ t.pending = rest := by
  induction between generalizing s with
  | nil => exact ⟨s, rfl, hst, rfl, rfl, hpending⟩
  | cons i between ih =>
    obtain ⟨⟨hrst, hcmd⟩, hlater⟩ := List.forall_mem_cons.mp hinputs
    obtain rfl := nextInput_of_pending hpending
    have htail : s.pending.tail = between ++ rest := by rw [hpending]; rfl
    rw [List.countP_cons] at hfew ⊢
    cases hbyte : carriesByte (nextInput s) with
    | false =>
      simp only [hbyte, Bool.false_eq_true, if_false, Nat.add_zero] at hfew ⊢
      rw [List.length_cons, run_succ_of_step (step_in_data_of_no_byte hst hrst hcmd hbyte)]
      exact ih rfl hlater htail hfew hmax
    | true =>
      simp only [hbyte, if_true] at hfew ⊢
      have hroom : s.cnt.toNat < 130 := by omega
      have hopen : s.cnt.toNat + 1 ≠ s.expLen.toNat := by omega
      have hcnt : (byteAppended (nextInput s).value (commanded s .data false)).cnt.toNat = s.cnt.toNat + 1 :=
        cnt_succ_toNat hroom
      rw [List.length_cons, run_succ_of_step (step_in_data_of_byte hst hrst hcmd hbyte hroom)]
      obtain ⟨t, hrun, hdata, hcount, hlen, hrest⟩ :=
        ih (s := byteAppended (nextInput s).value (commanded s .data false))
          (byteAppended_st_of_open _ hopen) hlater htail
          (by rw [hcnt, byteAppended_expLen, commanded_expLen]; omega) hmax
      exact ⟨t, hrun, hdata, by omega, hlen, hrest⟩

/-- A header byte in `Header` begins a frame of one byte. -/
theorem step_of_header_byte {s : State} {h : Byte} {a b : Pos} {rest : List Input} (hst : s.st = .header)
    (hvalid : 0x80 ≤ h.toNat) (hpending : s.pending = byteInput h a b :: rest) :
    step s = .next (frameStarted h (commanded s .header false)) := by
  have hinput := nextInput_of_pending hpending
  have hcmd : CommandEffect (nextInput s).cmd s.st .header false := by
    rw [hinput, hst]; exact .no_command _
  have hstep := StepsTo.header (s := s) (by rw [hinput]; rfl) hcmd (by rw [hinput]; rfl)
    (by rw [hinput]; exact hvalid)
  rw [hinput] at hstep
  exact step_eq_of_stepsTo hstep

/-- A plain data byte in `Data` is appended. -/
theorem step_of_data_byte {s : State} {v : Byte} {a b : Pos} {rest : List Input} (hst : s.st = .data)
    (hroom : s.cnt.toNat < 130) (hpending : s.pending = byteInput v a b :: rest) :
    step s = .next (byteAppended v (commanded s .data false)) := by
  have hinput := nextInput_of_pending hpending
  have hstep := step_in_data_of_byte (s := s) hst (by rw [hinput]; rfl)
    (by rw [hinput]; exact (by decide : 0b00#2 ≠ 0b10#2)) (by rw [hinput]; rfl) hroom
  rwa [hinput] at hstep

/-- A plain data byte in `Checksum` completes the frame. -/
theorem step_of_checksum_byte {s : State} {c : Byte} {a b : Pos} {rest : List Input} (hst : s.st = .checksum)
    (hroom : s.cnt.toNat ≤ 130) (hpending : s.pending = byteInput c a b :: rest) :
    step s = .next (frameCompleted c (commanded s .checksum false)) := by
  have hinput := nextInput_of_pending hpending
  have hcmd : CommandEffect (nextInput s).cmd s.st .checksum false := by
    rw [hinput, hst]; exact .no_command _
  have hstep := StepsTo.checksum (s := s) (by rw [hinput]; rfl) hcmd (by rw [hinput]; rfl) hroom
  rw [hinput] at hstep
  exact step_eq_of_stepsTo hstep

/-- Settles O50: the header byte counts one, `run_in_data` counts the rest, and a further byte is the last exactly
at `exp_len`. -/
theorem frameReachesChecksumOnItsLastByte : Obligations.FrameReachesChecksumOnItsLastByte := by
  intro s h a b between rest hst hvalid hinputs hpending hfew
  have hbyte : h.toNat < 256 := h.isLt
  have hstart := step_of_header_byte hst hvalid hpending
  have hlen : (frameStarted h (commanded s .header false)).expLen.toNat = h.toNat - 0x80 + 3 :=
    decodeLength_toNat hvalid
  have htail : s.pending.tail = between ++ rest := by rw [hpending]; rfl
  obtain ⟨t, hrun, hdata, hcount, hkept, hrest⟩ :=
    run_in_data between (s := frameStarted h (commanded s .header false)) rfl hinputs htail
      (by rw [hlen]; exact hfew) (by omega)
  have hcnt : t.cnt.toNat = 1 + between.countP carriesByte := hcount
  rw [← hkept] at hlen
  refine ⟨t, ?_, hdata, hcnt, hlen, hrest, fun v x y rest' hnext => ?_⟩
  · rw [Nat.add_comm, run_succ_of_step hstart, hrun]
  · refine ⟨_, step_of_data_byte hdata (by omega) (hrest.trans hnext), ?_⟩
    rw [byteAppended_st_eq_checksum_iff, commanded_cnt, commanded_expLen, hcnt, hlen]
    omega

/-! ## What a frame in progress holds -/

/-- The bytes `bs` of the frame have come, and its second one began at `start`. -/
structure HoldsFrame (start : Pos) (bs : List Byte) (s : State) : Prop where
  cnt : s.cnt.toNat = bs.length
  sum : s.sum = BitVec.ofNat 8 (exactSum bs)
  entries : ∀ i v, bs[i]? = some v → bufRead s i = v
  dest : ∀ v, bs[1]? = some v → s.destId = v
  src : ∀ v, bs[2]? = some v → s.srcId = v
  fstart : 2 ≤ bs.length → s.fstart = start

theorem getElem?_concat_eq_some {bs : List Byte} {v w : Byte} {i : Nat} (h : (bs ++ [v])[i]? = some w) :
    (i < bs.length ∧ bs[i]? = some w) ∨ (i = bs.length ∧ w = v) := by
  rcases Nat.lt_trichotomy i bs.length with hlt | rfl | hgt
  · rw [List.getElem?_append_left hlt] at h
    exact .inl ⟨hlt, h⟩
  · rw [List.getElem?_concat_length] at h
    exact .inr ⟨rfl, (Option.some.inj h).symm⟩
  · rw [List.getElem?_eq_none (by simp; omega)] at h
    simp at h

theorem holdsFrame_frameStarted (start : Pos) (h : Byte) (s : State) :
    HoldsFrame start [h] (frameStarted h s) where
  cnt := rfl
  sum := by simp [exactSum]
  entries := fun i v hi => by
    obtain ⟨hlt, -⟩ | ⟨rfl, rfl⟩ := getElem?_concat_eq_some (bs := []) hi
    · simp at hlt
    · rw [bufRead_frameStarted, List.length_nil, if_pos rfl]
  dest := by simp
  src := by simp
  fstart := by simp

theorem holdsFrame_byteAppended {start : Pos} {bs : List Byte} {s : State} {v : Byte} (h : HoldsFrame start bs s)
    (hroom : s.cnt.toNat < 130) (hstart : bs.length = 1 → s.inp.start = start) (hpos : 1 ≤ bs.length) :
    HoldsFrame start (bs ++ [v]) (byteAppended v s) where
  cnt := by
    rw [List.length_append, ← h.cnt]
    exact cnt_succ_toNat hroom
  sum := by
    rw [byteAppended_sum, h.sum, exactSum_append, BitVec.ofNat_add]
    simp [exactSum]
  entries := fun i w hi => by
    rw [bufRead_byteAppended, h.cnt]
    obtain ⟨hlt, hold⟩ | ⟨rfl, rfl⟩ := getElem?_concat_eq_some hi
    · rw [if_neg (by omega)]
      exact h.entries i w hold
    · rw [if_pos rfl]
  dest := fun w hi => by
    rw [byteAppended_destId, h.cnt]
    obtain ⟨hlt, hold⟩ | ⟨hlast, rfl⟩ := getElem?_concat_eq_some hi
    · rw [if_neg (by omega)]
      exact h.dest w hold
    · rw [if_pos (by omega)]
  src := fun w hi => by
    rw [byteAppended_srcId, h.cnt]
    obtain ⟨hlt, hold⟩ | ⟨hlast, rfl⟩ := getElem?_concat_eq_some hi
    · rw [if_neg (by omega)]
      exact h.src w hold
    · rw [if_pos (by omega)]
  fstart := fun _ => by
    rw [byteAppended_fstart, h.cnt]
    by_cases hone : bs.length = 1
    · rw [if_pos (by omega)]
      exact hstart hone
    · rw [if_neg (by omega)]
      exact h.fstart (by omega)

/-- A command without effect on the FSM leaves the frame as it is. -/
theorem holdsFrame_commanded {start : Pos} {bs : List Byte} {s : State} (h : HoldsFrame start bs s)
    (st : FsmState) (ack : Bool) : HoldsFrame start bs (commanded s st ack) :=
  { h with }

theorem frameSlice_of_holdsFrame {start : Pos} {bs : List Byte} {s : State} (h : HoldsFrame start bs s) (a : Nat) :
    frameSlice s a = bs.drop a := by
  apply List.ext_getElem
  · rw [frameSlice_length, List.length_drop, h.cnt]
  · intro i hi hi'
    rw [List.length_drop] at hi'
    rw [List.getElem_drop]
    simp only [frameSlice, List.getElem_map, List.getElem_range', Nat.one_mul]
    exact h.entries _ _ (List.getElem?_eq_getElem _)

/-! ## The run of a whole frame -/

/-- Plain data bytes, the k-th of the frame at the positions `pos k`. -/
def byteInputsAt (pos : Nat → Pos × Pos) (k : Nat) (vs : List Byte) : List Input :=
  (vs.zipIdx k).map fun p => byteInput p.1 (pos p.2).1 (pos p.2).2

theorem byteInputsAt_cons (pos : Nat → Pos × Pos) (k : Nat) (v : Byte) (vs : List Byte) :
    byteInputsAt pos k (v :: vs) = byteInput v (pos k).1 (pos k).2 :: byteInputsAt pos (k + 1) vs := rfl

/-- One more byte of a frame in `Data`, at its position. -/
theorem step_of_frame_byte (pos : Nat → Pos × Pos) {v : Byte} {vs bs : List Byte} {s : State} {rest : List Input}
    (hst : s.st = .data) (h : HoldsFrame (pos 1).1 bs s) (hpos : 1 ≤ bs.length) (hroom : bs.length < 130)
    (hpending : s.pending = byteInputsAt pos bs.length (v :: vs) ++ rest) :
    step s = .next (byteAppended v (commanded s .data false)) ∧
      HoldsFrame (pos 1).1 (bs ++ [v]) (byteAppended v (commanded s .data false)) := by
  rw [← h.cnt] at hroom
  refine ⟨step_of_data_byte hst hroom hpending,
    holdsFrame_byteAppended (holdsFrame_commanded h _ _) hroom (fun hone => ?_) hpos⟩
  rw [commanded_inp, nextInput_of_pending hpending, hone]
  rfl

theorem byteInputsAt_append (pos : Nat → Pos × Pos) (k : Nat) (vs ws : List Byte) :
    byteInputsAt pos k (vs ++ ws) = byteInputsAt pos k vs ++ byteInputsAt pos (k + vs.length) ws := by
  rw [byteInputsAt, List.zipIdx_append, List.map_append]
  rfl

/-- The rest of a frame's bytes before its checksum leads from `Data` to `Checksum`. -/
theorem run_to_checksum (pos : Nat → Pos × Pos) (v : Byte) (vs : List Byte) {bs : List Byte} {s : State}
    {rest : List Input} (hst : s.st = .data) (h : HoldsFrame (pos 1).1 bs s) (hpos : 1 ≤ bs.length)
    (hpending : s.pending = byteInputsAt pos bs.length (v :: vs) ++ rest)
    (hlen : bs.length + (vs.length + 1) = s.expLen.toNat) (hmax : s.expLen.toNat ≤ 130) :
    ∃ t : State, Host.Core.run core (vs.length + 1) s = .next t ∧ t.st = .checksum ∧
      HoldsFrame (pos 1).1 (bs ++ v :: vs) t ∧ t.fend = (pos (bs.length + vs.length)).2 ∧
      t.dumpHdrDone = s.dumpHdrDone ∧ t.pending = rest := by
  induction vs generalizing v bs s with
  | nil =>
    obtain ⟨hstep, hholds⟩ := step_of_frame_byte pos hst h hpos (by simp at hlen; omega) hpending
    have hfull : s.cnt.toNat + 1 = s.expLen.toNat := by rw [h.cnt]; exact hlen
    have hinput := nextInput_of_pending hpending
    refine ⟨_, run_succ_of_step hstep 0, (byteAppended_st_eq_checksum_iff _ _).mpr hfull, hholds, ?_, rfl, ?_⟩
    · rw [byteAppended_fend, commanded_cnt, commanded_expLen, if_pos hfull, commanded_inp, hinput]
      rfl
    · exact congrArg List.tail hpending
  | cons w ws ih =>
    rw [List.length_cons] at hlen
    obtain ⟨hstep, hholds⟩ := step_of_frame_byte pos hst h hpos (by omega) hpending
    have hopen : s.cnt.toNat + 1 ≠ s.expLen.toNat := by rw [h.cnt]; omega
    have hlength : (bs ++ [v]).length = bs.length + 1 := by simp
    obtain ⟨t, hrun, hchecksum, hholds', hfend, hdump, hrest⟩ :=
      ih w (bs := bs ++ [v]) (s := byteAppended v (commanded s .data false)) (byteAppended_st_of_open v hopen)
        hholds (by omega)
        (by rw [hlength]; exact congrArg List.tail hpending)
        (by rw [hlength, byteAppended_expLen, commanded_expLen]; omega) hmax
    refine ⟨t, (run_succ_of_step hstep _).trans hrun, hchecksum, by simpa using hholds', ?_, hdump, hrest⟩
    rw [hfend, hlength, List.length_cons, Nat.add_right_comm, Nat.add_assoc]

/-- The running sum matches the checksum byte exactly when the exact sum does modulo 256. -/
theorem ofNat_eq_iff (n : Nat) (c : Byte) : BitVec.ofNat 8 n = c ↔ n % 256 = c.toNat := by
  rw [← BitVec.toNat_inj, BitVec.toNat_ofNat]

/-- A whole frame, from its header byte to the state its checksum byte is handled in. -/
theorem run_to_checksum_of_header (pos : Nat → Pos × Pos) {s : State} {h dest src c : Byte} {payload : List Byte}
    {rest : List Input} (hst : s.st = .header) (hvalid : 0x80 ≤ h.toNat) (hlen : payload.length = h.toNat - 0x80)
    (hpending : s.pending = byteInputsAt pos 0 (h :: dest :: src :: payload ++ [c]) ++ rest) :
    ∃ t : State, Host.Core.run core (payload.length + 3) s = .next t ∧ t.st = .checksum ∧
      HoldsFrame (pos 1).1 (h :: dest :: src :: payload) t ∧ t.fend = (pos (payload.length + 2)).2 ∧
      t.dumpHdrDone = s.dumpHdrDone ∧ t.pending = byteInputsAt pos (payload.length + 3) [c] ++ rest := by
  have hbyte : h.toNat < 256 := h.isLt
  have hexp : (frameStarted h (commanded s .header false)).expLen.toNat = payload.length + 3 := by
    rw [hlen]; exact decodeLength_toNat hvalid
  rw [List.cons_append, byteInputsAt_cons] at hpending
  have htail : (frameStarted h (commanded s .header false)).pending =
      byteInputsAt pos 1 (dest :: src :: payload) ++ (byteInputsAt pos (payload.length + 3) [c] ++ rest) := by
    refine (congrArg List.tail hpending).trans ?_
    rw [List.cons_append, List.tail_cons, byteInputsAt_append, List.append_assoc, Nat.zero_add, List.length_cons,
      List.length_cons, Nat.add_comm 1]
  obtain ⟨t, hrun, hchecksum, hholds, hfend, hdump, hrest⟩ :=
    run_to_checksum pos dest (src :: payload) rfl (holdsFrame_frameStarted _ h _) (Nat.le_refl 1) htail
      (by rw [hexp]; simp only [List.length_cons, List.length_nil]; omega) (by omega)
  refine ⟨t, ?_, hchecksum, hholds, ?_, hdump, hrest⟩
  · rw [run_succ_of_step (step_of_header_byte hst hvalid hpending)]
    exact hrun
  · refine hfend.trans (congrArg (fun n => (pos n).2) ?_)
    simp only [List.length_cons, List.length_nil]
    omega

/-- Settles O51: `run_to_checksum_of_header` reaches `Checksum`, and the checksum step reads what the frame
holds. -/
theorem wholeFrameEmitsItsRecords : Obligations.WholeFrameEmitsItsRecords := by
  intro s h dest src c payload pos rest hst hvalid hlen hpending
  have hbyte : h.toNat < 256 := h.isLt
  obtain ⟨t, hrun, hchecksum, hholds, hfend, hdump, hrest⟩ :=
    run_to_checksum_of_header pos hst hvalid hlen hpending
  have hroom : t.cnt.toNat ≤ 130 := by rw [hholds.cnt]; simp; omega
  have hstep := step_of_checksum_byte hchecksum hroom hrest
  have hinput := nextInput_of_pending hrest
  have hu := holdsFrame_commanded hholds .checksum false
  have hsum : (commanded t .checksum false).sum = c ↔ exactSum (h :: dest :: src :: payload) % 256 = c.toNat := by
    rw [hu.sum, ofNat_eq_iff]
  have hdest : t.destId = dest := hholds.dest dest rfl
  have hsrc : t.srcId = src := hholds.src src rfl
  have hfstart : t.fstart = (pos 1).1 := hholds.fstart (by simp)
  refine ⟨frameCompleted c (commanded t .checksum false), payload.length + 3,
    decide (exactSum (h :: dest :: src :: payload) % 256 = c.toNat), roleOfSource src, ?_, rfl, decide_eq_true_iff,
    roleOfSource_eq_tester_iff src, rfl, rfl, rfl, ?_, rfl, congrArg List.tail hrest, ?_, ?_, ?_⟩
  · rw [run_add hrun 1, run_succ_of_step hstep]
    rfl
  · simp only [frameCompleted_csValid, hsum]
  · refine (onChannel_annotation_cksumEvents c _).trans ?_
    simp only [hsum, commanded_inp, hinput, decide_eq_true_eq]
    rfl
  · refine (onChannel_structured_cksumEvents c _).trans ?_
    simp only [hsum, frameSlice_of_holdsFrame hu, commanded_fstart, commanded_fend, commanded_destId,
      commanded_srcId, hfstart, hfend, hdest, hsrc, decide_eq_true_eq]
    rfl
  · refine (onChannel_rawBinary_cksumEvents c _).trans ?_
    simp only [hsum, frameSlice_of_holdsFrame hu, commanded_fstart, commanded_destId, commanded_srcId,
      commanded_inp, commanded_dumpHdrDone, hinput, hfstart, hdest, hsrc, hdump]
    rfl

/-! ## `FRAME` and `BADFRAME` -/

theorem byteInputsFrom_eq (k j : Nat) (vs : List Byte) :
    byteInputsFrom (k + j) vs = byteInputsAt (fun i => (10 * (k + i), 10 * (k + i) + 9)) j vs := by
  induction vs generalizing j with
  | nil => rfl
  | cons v vs ih => rw [byteInputsFrom, byteInputsAt_cons, Nat.add_assoc, ih]

/-- The header byte declares the payload it comes with. -/
theorem frameHeader_toNat {n : Nat} (h : n ≤ 127) : (0x80#8 + BitVec.ofNat 8 n).toNat = 0x80 + n := by
  rw [BitVec.toNat_add, BitVec.toNat_ofNat]
  simp
  omega

/-- The steps of `FRAME` with any checksum byte: `cs_valid` compares it with the body's sum. -/
theorem run_frameBody {s : State} {dest src c : Byte} {payload : List Byte} {k : Nat} (hst : s.st = .header)
    (hlen : payload.length ≤ 127) (hpending : s.pending = byteInputsFrom k (frameBody dest src payload ++ [c])) :
    ∃ t : State, Host.Core.run core (payload.length + 4) s = .next t ∧
      (t.csValid = true ↔ BitVec.ofNat 8 (exactSum (frameBody dest src payload)) = c) ∧ t.st = .header := by
  have hheader := frameHeader_toNat hlen
  obtain ⟨t, n, valid, role, hrun, -, hvalid, -, hheader', -, -, hflag, -⟩ :=
    wholeFrameEmitsItsRecords s (0x80#8 + BitVec.ofNat 8 payload.length) dest src c payload
      (fun i => (10 * (k + i), 10 * (k + i) + 9)) [] hst (by omega) (by omega)
      (by rw [hpending, List.append_nil]; exact byteInputsFrom_eq k 0 _)
  exact ⟨t, hrun, by rw [hflag, hvalid, ofNat_eq_iff]; rfl, hheader'⟩

/-- Settles O52: `FRAME` ends in the body's sum and `BADFRAME` in another byte. -/
theorem frameIsValidAndBadFrameIsNot : Obligations.FrameIsValidAndBadFrameIsNot := by
  intro s dest src payload k hst hlen
  constructor
  · intro hpending
    obtain ⟨t, hrun, hvalid, hheader⟩ := run_frameBody hst hlen hpending
    exact ⟨t, hrun, hvalid.mpr rfl, hheader⟩
  · intro hpending
    obtain ⟨t, hrun, hvalid, hheader⟩ := run_frameBody hst hlen hpending
    refine ⟨t, hrun, ?_, hheader⟩
    rw [Bool.eq_false_iff, Ne, hvalid]
    simp

end Sys2Proof.Machine
end

section
/-! PROOFS. The FSM, the CMD rows and the rows that write no frame register (40_fsm.md sections 1 to 3;
44_error_and_nondata.md), and the line of a dump row. -/

namespace Sys2Proof.Machine

open Sys2Proof.Safety

/-! ## The FSM and the CMD rows -/

/-- The transitions of the statement are those into `Error` and the allowed table's (40_fsm.md R58, R59). -/
theorem permitted_iff (src target : FsmState) :
    (target = .error ∨ (src = .header ∧ target = .data) ∨
        (src = .data ∧ (target = .data ∨ target = .checksum)) ∨ (src = .checksum ∧ target = .header) ∨
        (src = .error ∧ target = .header)) ↔
      target = .error ∨ allowed src target = true := by
  cases src <;> cases target <;> decide

/-- Settles O10: into `Error` always, else by the allowed table. -/
theorem tryTransitionFollowsTheTable : Obligations.TryTransitionFollowsTheTable := by
  intro target s
  rw [permitted_iff]
  constructor
  · rintro (rfl | hallowed)
    · exact tryTransition_error s
    · exact tryTransition_of_allowed hallowed
  · intro hrejected
    obtain ⟨hnotError, hnotAllowed⟩ := not_or.mp hrejected
    exact tryTransition_of_not_allowed hnotError (Bool.eq_false_iff.mpr hnotAllowed)

/-- Settles O11: both rows write the acknowledgement only. -/
theorem cmdNoneAndReservedOnlyClearTheAck : Obligations.CmdNoneAndReservedOnlyClearTheAck :=
  fun _ => ⟨rfl, rfl⟩

/-- Settles O12: `commandTransition_header`, state by state. -/
theorem cmdToHeaderOutcomeByState : Obligations.CmdToHeaderOutcomeByState := by
  intro s
  refine congrArg Host.Outcome.next ((commandTransition_header s).trans ?_)
  cases s.st <;> rfl

/-- Settles O13: the transition into `Error` is always taken. -/
theorem cmdToErrorAlwaysEntersError : Obligations.CmdToErrorAlwaysEntersError :=
  fun s => congrArg Host.Outcome.next (commandTransition_error s)

/-- Settles O14: the row answers `resetDone`. -/
theorem resetWritesItsConstants : Obligations.ResetWritesItsConstants :=
  fun _ s => ⟨resetDone s, execReset_eq s, rfl, rfl, rfl, rfl, rfl, rfl, rfl, rfl, rfl, rfl, rfl⟩

/-- Settles O15: the fields of the reset state. -/
theorem resetStateHoldsTheSpecValues : Obligations.ResetStateHoldsTheSpecValues :=
  ⟨rfl, rfl, rfl, rfl, rfl, rfl, rfl, rfl, rfl⟩

/-- Settles O16: the row answers its state. -/
theorem nopChangesNothing : Obligations.NopChangesNothing := fun _ _ _ _ => rfl

/-- Settles O17: a non-data event is reported nowhere. -/
theorem ignoreChangesNothing : Obligations.IgnoreChangesNothing :=
  fun _ v s => congrArg Host.Outcome.next (raiseError_nonDataEvent s v)

/-! ## Rows that write no frame register -/

theorem goTo_eq (T : FsmState) (s : State) : goTo T s = { s with st := (goTo T s).st } := by
  unfold goTo tryTransition
  (repeat' split) <;> rfl

/-- What the rows outside a frame can write: the FSM state, the acknowledgement and the events. -/
theorem nonFrameRow_eq {i : Instr} {s t : State}
    (hrow : (∃ st d v, i = .nop st d v) ∨ (∃ st v, i = .ignore st v) ∨ (∃ v, i = .hdrBad v) ∨
      (∃ v, i = .errByte v) ∨ i = .cmdNone ∨ i = .cmdToHeader ∨ i = .cmdToError ∨ i = .cmdRsvd)
    (h : exec i s = .next t) :
    ∃ st ack events, t = { s with st := st, cmdAck := ack, events := events } := by
  have heq : ∀ {u}, exec i s = .next u → t = u := fun hu => Host.Outcome.next.inj (h.symm.trans hu)
  rcases hrow with ⟨_, _, _, rfl⟩ | ⟨_, _, rfl⟩ | ⟨_, rfl⟩ | ⟨v, rfl⟩ | rfl | rfl | rfl | rfl
  · exact ⟨_, _, _, heq rfl⟩
  · exact ⟨_, _, _, heq rfl⟩
  · exact ⟨_, _, _, heq rfl⟩
  · by_cases hauto : s.errAutoExit
    · exact ⟨_, _, _, heq ((congrArg Host.Outcome.next (if_pos hauto)).trans (congrArg _ (goTo_eq _ _)))⟩
    · exact ⟨_, _, _, heq (congrArg Host.Outcome.next (if_neg hauto))⟩
  · exact ⟨_, _, _, heq rfl⟩
  · have hheader := heq (congrArg Host.Outcome.next (commandTransition_header s))
    split at hheader
    · exact ⟨_, _, _, hheader⟩
    · exact ⟨_, _, _, hheader⟩
  · exact ⟨_, _, _, heq rfl⟩
  · exact ⟨_, _, _, heq rfl⟩

/-- Settles O25: no entry and no other register is among what these rows can write. -/
theorem nonFrameRowsKeepTheFrame : Obligations.NonFrameRowsKeepTheFrame := by
  intro i s t hrow h
  obtain ⟨st, ack, events, rfl⟩ := nonFrameRow_eq hrow h
  exact ⟨bufRead_congr rfl rfl, rfl, rfl, rfl, rfl, rfl, rfl, rfl, rfl, rfl, rfl, rfl, rfl⟩

/-! ## The composition of a step -/

/-- Settles O7: the input taken, the CMD row, which always completes without reset, and the BYTE row after it. -/
theorem stepRunsTheDecodedRows : Obligations.StepRunsTheDecodedRows := by
  intro s
  have hinput : (takeInput s).inp = nextInput s := takeInput_inp s
  refine ⟨takeInput_eq s, fun hrst => ?_, fun hrst => ?_⟩
  · rw [step, runStep_of_rst (by rw [hinput]; exact hrst), runCmdRow, hinput]
  · obtain ⟨st', ack, -, hcmd⟩ := exec_cmd_row (nextInput s) (takeInput s) hrst
    refine ⟨_, hcmd, ?_⟩
    rw [step, runStep_of_not_rst (by rw [hinput]; exact hrst), runCmdRow, hinput, hcmd, andThen_next, runByteRow,
      hinput]

/-- Settles O38: a reset step answers `resetDone` of the started state. -/
theorem resetStepDiscardsTheRestOfItsInput : Obligations.ResetStepDiscardsTheRestOfItsInput :=
  fun s hrst => ⟨resetDone (started s), step_eq_of_stepsTo (.reset hrst), rfl, rfl, rfl, rfl, rfl, rfl, rfl, rfl⟩

/-- Settles O40: no command keeps the FSM state, and no byte runs no handler. -/
theorem idleStepKeepsTheState : Obligations.IdleStepKeepsTheState := by
  intro s hrst hcode hbyte
  have hcmd : CommandEffect (nextInput s).cmd s.st s.st false := hcode ▸ .no_command s.st
  exact step_eq_of_stepsTo (.idle hrst hcmd hbyte)

/-! ## The line of a dump row -/

/-- Settles O55: the five fields joined by tabs. -/
theorem dumpRowLineHoldsItsFieldsInOrder : Obligations.DumpRowLineHoldsItsFieldsInOrder :=
  fun _ _ _ _ _ _ _ => rfl

end Sys2Proof.Machine
end

section
/-! PROOFS. What a step emits, how `Error` is entered and left, and what a step only copies or reads
(30_encoding.md section 6; 43_checksum.md section 1; 60_exceptions.md section 2; 70_reset_and_hazards.md
section 3). -/

namespace Sys2Proof.Machine

open Sys2Proof.Safety

/-! ## The events of a step -/

/-- No command and the reserved one have no effect on the FSM. -/
theorem CommandEffect.stays {cmd : BitVec 2} {st st' : FsmState} {ack : Bool} (h : CommandEffect cmd st st' ack)
    (hcmd : cmd = 0b00#2 ∨ cmd = 0b11#2) : st' = st := by
  cases h with
  | none => rfl
  | toHeader hcode => rcases hcmd with hcmd | hcmd <;> simp [hcode] at hcmd
  | toError hcode => rcases hcmd with hcmd | hcmd <;> simp [hcode] at hcmd

/-- The next step handles a checksum byte: a data byte in `Checksum` that no command leaves before it. -/
def HandlesChecksum (s : State) : Prop :=
  s.st = .checksum ∧ ((nextInput s).cmd = 0b00#2 ∨ (nextInput s).cmd = 0b11#2)

/-- The events of a step: none without a data byte or with a reset; the frame's for a checksum byte; else one
annotation over the byte's span (30_encoding.md section 6). -/
inductive StepEmits (s : State) : List Event → Prop where
  | nothing (h : (nextInput s).rst = true ∨ carriesByte (nextInput s) = false) : StepEmits s []
  | annotation (cat : Category) (label : Label) (hrst : (nextInput s).rst = false)
      (hbyte : carriesByte (nextInput s) = true) (hother : ¬ HandlesChecksum s) :
      StepEmits s [.ann (nextInput s).start (nextInput s).stop cat label (nextInput s).value]
  | frame (hrst : (nextInput s).rst = false) (hbyte : carriesByte (nextInput s) = true)
      (hchecksum : HandlesChecksum s) :
      StepEmits s (cksumEvents (nextInput s).value (commanded s .checksum false))

/-- A command that leads to another FSM state than `Checksum` leaves no checksum byte to handle. -/
theorem not_handlesChecksum {s : State} {st' : FsmState} {ack : Bool}
    (hcmd : CommandEffect (nextInput s).cmd s.st st' ack) (hst : st' ≠ .checksum) : ¬ HandlesChecksum s :=
  fun ⟨hchecksum, hcode⟩ => hst ((hcmd.stays hcode).trans hchecksum)

/-- The event of an appended byte is one annotation over its span. -/
theorem byteAppended_emits (v : Byte) (s : State) :
    ∃ cat label, (byteAppended v s).events = s.events ++ [.ann s.inp.start s.inp.stop cat label v] := by
  rw [byteAppended_events]
  split_ifs <;> exact ⟨_, _, rfl⟩

theorem StepsTo.emits {s t : State} (h : StepsTo s t) : StepEmits s t.events := by
  cases h with
  | reset hrst => exact .nothing (.inl hrst)
  | idle _ _ hbyte => exact .nothing (.inr hbyte)
  | header hrst hcmd hbyte | malformed hrst hcmd hbyte | error hrst hcmd hbyte =>
    exact .annotation _ _ hrst hbyte (not_handlesChecksum hcmd (by decide))
  | data hrst hcmd hbyte =>
    obtain ⟨cat, label, hevents⟩ := byteAppended_emits (nextInput s).value (commanded s .data _)
    rw [hevents]
    exact .annotation cat label hrst hbyte (not_handlesChecksum hcmd (by decide))
  | checksum hrst hcmd hbyte =>
    obtain ⟨hst, rfl, hcode⟩ := hcmd.of_checksum
    exact .frame hrst hbyte ⟨hst, hcode⟩

theorem length_cksumEvents (c : Byte) (s : State) :
    (cksumEvents c s).length = if s.dumpHdrDone then 4 else 5 := by
  by_cases hdone : s.dumpHdrDone <;> simp [cksumEvents, hdone]

/-- Settles O41: the three kinds of step by what they emit. -/
theorem eventsPerStepAreAtMostFive : Obligations.EventsPerStepAreAtMostFive := by
  intro s t hstep
  have hemits := (stepsTo_of_step hstep).emits
  generalize t.events = evs at hemits ⊢
  cases hemits with
  | nothing h =>
    refine ⟨by simp, fun _ => rfl, fun hrst hbyte => ?_, fun hrst hbyte => ?_⟩ <;>
      simp [hrst, hbyte] at h
  | annotation cat label hrst hbyte hother =>
    exact ⟨by simp, by simp [hrst, hbyte], fun _ _ _ => rfl, fun _ _ hst hcode => absurd ⟨hst, hcode⟩ hother⟩
  | frame hrst hbyte hchecksum =>
    have hlength := length_cksumEvents (nextInput s).value (commanded s .checksum false)
    refine ⟨?_, by simp [hrst, hbyte], fun _ _ hst => absurd hchecksum.1 hst, fun _ _ _ _ => hlength⟩
    rw [hlength]
    split <;> decide

/-- Settles O42: the other kinds of step emit annotations only. -/
theorem frameEventsComeFromChecksumBytesOnly : Obligations.FrameEventsComeFromChecksumBytesOnly := by
  intro s t e hstep hmem hchannel
  have hemits := (stepsTo_of_step hstep).emits
  generalize t.events = evs at hemits hmem
  cases hemits with
  | nothing => simp at hmem
  | annotation =>
    obtain rfl := List.mem_singleton.mp hmem
    exact absurd rfl hchannel
  | frame hrst hbyte hchecksum => exact ⟨hchecksum.1, hbyte, hrst, hchecksum.2⟩

theorem dumpHdr_not_mem_cksumEvents {c : Byte} {s : State} (hdone : s.dumpHdrDone = true) (a b : Pos) :
    .dumpHdr a b ∉ cksumEvents c s := by
  by_cases hsum : s.sum = c <;> simp [cksumEvents, hdone, hsum]

/-- Settles O33: only a reset clears the flag, and with the flag set no kind of step emits the header. -/
theorem dumpHeaderOnlyOnceUntilReset : Obligations.DumpHeaderOnlyOnceUntilReset := by
  intro s t hdone hrst hstep
  have hcase := stepsTo_of_step hstep
  constructor
  · cases hcase with
    | reset hrst' => simp [hrst] at hrst'
    | checksum => rfl
    | idle | header | malformed | data | error => exact hdone
  · intro a b hmem
    have hemits := hcase.emits
    generalize t.events = evs at hemits hmem
    cases hemits with
    | nothing => simp at hmem
    | annotation => simp at hmem
    | frame => exact dumpHdr_not_mem_cksumEvents (s := commanded s .checksum false) hdone a b hmem

/-! ## Into and out of `Error` -/

/-- A command leads into `Error` from another state by its code only. -/
theorem CommandEffect.into_error {cmd : BitVec 2} {st : FsmState} {ack : Bool}
    (h : CommandEffect cmd st .error ack) (hst : st ≠ .error) : cmd = 0b10#2 ∧ ack = true := by
  cases h with
  | none => exact absurd rfl hst
  | toError hcode => exact ⟨hcode, rfl⟩

/-- A command leads out of `Error` by its code only. -/
theorem CommandEffect.out_of_error {cmd : BitVec 2} {st' : FsmState} {ack : Bool}
    (h : CommandEffect cmd .error st' ack) (hst' : st' ≠ .error) : cmd = 0b01#2 := by
  cases h with
  | none => exact absurd rfl hst'
  | toHeader hcode => exact hcode
  | toError => exact absurd rfl hst'

theorem byteAppended_st_ne_error (v : Byte) (s : State) : (byteAppended v s).st ≠ .error := by
  rw [byteAppended_st]
  split <;> simp

/-- Settles O36: no handler leads into `Error`, so the command did. -/
theorem errorIsEnteredByCommandOnly : Obligations.ErrorIsEnteredByCommandOnly := by
  intro s t hst hstep herror
  cases stepsTo_of_step hstep with
  | reset | header | malformed | checksum => cases herror
  | data => exact absurd herror (byteAppended_st_ne_error _ _)
  | idle hrst hcmd _ =>
    obtain rfl := herror
    obtain ⟨hcode, rfl⟩ := hcmd.into_error hst
    exact ⟨hrst, hcode, rfl⟩
  | error hrst hcmd _ =>
    obtain ⟨hcode, rfl⟩ := hcmd.into_error hst
    exact ⟨hrst, hcode, rfl⟩

/-- Settles O37: without reset the command leaves `Error`, or `ERR_BYTE` does under the parameter. -/
theorem errorIsLeftByItsThreeExitsOnly : Obligations.ErrorIsLeftByItsThreeExitsOnly := by
  intro s t hst hstep hleft
  cases stepsTo_of_step hstep with
  | reset hrst => exact .inl hrst
  | idle _ hcmd _ => exact .inr (.inl ((hst ▸ hcmd).out_of_error hleft))
  | header _ hcmd _ _ | malformed _ hcmd _ _ | data _ hcmd _ _ | checksum _ hcmd _ _ =>
    exact .inr (.inl ((hst ▸ hcmd).out_of_error (by decide)))
  | error _ _ hbyte =>
    refine .inr (.inr ⟨?_, hbyte⟩)
    by_contra hauto
    exact hleft (if_neg hauto)

/-- Settles O39: the byte meets the state the command left, `Error` or `Header`. -/
theorem commandActsBeforeTheByte : Obligations.CommandActsBeforeTheByte := by
  intro s v a b rest
  constructor
  · intro hpending
    have hinput := nextInput_of_pending hpending
    have hcmd : CommandEffect (nextInput s).cmd s.st .error true := .toError (by rw [hinput]; rfl)
    refine ⟨_, step_eq_of_stepsTo (.error (by rw [hinput]; rfl) hcmd (by rw [hinput]; rfl)), rfl, ?_, rfl⟩
    rw [hinput, errorReported_events, commanded_inp, hinput]
    rfl
  · intro hpending hst
    have hinput := nextInput_of_pending hpending
    have hvalue : (nextInput s).value = v := by rw [hinput]; rfl
    have hcmd : CommandEffect (nextInput s).cmd s.st .header true := .toHeader (by rw [hinput]; rfl) (.inr hst)
    by_cases hvalid : 0x80 ≤ v.toNat
    · refine ⟨_, step_eq_of_stepsTo (.header (by rw [hinput]; rfl) hcmd (by rw [hinput]; rfl)
        (by rw [hvalue]; exact hvalid)), rfl, ?_, (if_pos hvalid).symm⟩
      rw [if_pos hvalid, hvalue, frameStarted_events, commanded_inp, hinput]
      rfl
    · refine ⟨_, step_eq_of_stepsTo (.malformed (by rw [hinput]; rfl) hcmd (by rw [hinput]; rfl)
        (by rw [hvalue]; exact hvalid)), rfl, ?_, (if_neg hvalid).symm⟩
      rw [if_neg hvalid, hvalue, emitAnn_events, commanded_inp, hinput]
      rfl

/-! ## What a step only copies or reads -/

theorem positionsFit_of_not_inFrame {w : Nat} {s : State} (h : ¬ InFrame s) : PositionsFit w s :=
  ⟨fun hframe => absurd hframe h, fun hst => absurd (.inr hst) h⟩

theorem nextInput_fits {w : Nat} {s : State} (h : InputsFit w s.pending) :
    (nextInput s).start < 2 ^ w ∧ (nextInput s).stop < 2 ^ w := by
  cases hpending : s.pending with
  | nil =>
    rw [nextInput, hpending]
    exact ⟨Nat.two_pow_pos w, Nat.two_pow_pos w⟩
  | cons i rest =>
    rw [nextInput_of_pending hpending]
    exact h i (by rw [hpending]; exact List.mem_cons_self)

theorem positionsFit_commanded {w : Nat} {s : State} {cmd : BitVec 2} {st' : FsmState} {ack : Bool}
    (h : PositionsFit w s) (hcmd : CommandEffect cmd s.st st' ack) : PositionsFit w (commanded s st' ack) := by
  rcases hcmd.keeps_or_leaves with rfl | hleft
  · exact h
  · exact positionsFit_of_not_inFrame (not_inFrame_of_header_or_error hleft)

theorem positionsFit_byteAppended {w : Nat} {v : Byte} {s : State} (h : PositionsFit w s) (hst : s.st = .data)
    (hroom : s.cnt.toNat < 130) (hinp : s.inp.start < 2 ^ w ∧ s.inp.stop < 2 ^ w) :
    PositionsFit w (byteAppended v s) := by
  have hcnt : (byteAppended v s).cnt.toNat = s.cnt.toNat + 1 := cnt_succ_toNat hroom
  constructor
  · intro _ htwo
    rw [byteAppended_fstart]
    split
    · exact hinp.1
    · exact h.1 (.inl hst) (by omega)
  · intro hchecksum
    rw [byteAppended_fend, if_pos ((byteAppended_st_eq_checksum_iff v s).mp hchecksum)]
    exact hinp.2

/-- The spans of a checksum step's events are made of the byte's own span and the frame's. -/
theorem cksumEvents_span (c : Byte) (s : State) : ∀ e ∈ cksumEvents c s,
    (eventStart e = s.inp.start ∨ eventStart e = s.fstart) ∧
      (eventStop e = s.inp.stop ∨ eventStop e = s.fend) := by
  by_cases hsum : s.sum = c <;> by_cases hdone : s.dumpHdrDone <;>
    simp [cksumEvents, eventStart, eventStop, hsum, hdone]

/-- Settles O53: positions held are the frame's old ones or the byte's, and so are the spans of the events. -/
theorem positionsStayWithinTheirWidth : Obligations.PositionsStayWithinTheirWidth := by
  intro w s t hinv hfits hinputs hstep
  have hcase := stepsTo_of_step hstep
  have hinput := nextInput_fits hinputs
  have hpending : t.pending = s.pending.tail := by cases hcase <;> rfl
  refine ⟨?_, ?_, ?_⟩
  · cases hcase with
    | reset | malformed | checksum =>
      exact positionsFit_of_not_inFrame (not_inFrame_of_header_or_error (.inl rfl))
    | idle _ hcmd _ => exact positionsFit_commanded hfits hcmd
    | header => exact ⟨fun _ htwo => by simp at htwo, nofun⟩
    | data _ hcmd _ hroom => exact positionsFit_byteAppended (positionsFit_commanded hfits hcmd) rfl hroom hinput
    | error => exact positionsFit_of_not_inFrame (errorReported_not_inFrame _ _)
  · rw [hpending]
    exact fun i hi => hinputs i (List.mem_of_mem_tail hi)
  · intro e hmem
    have hemits := hcase.emits
    generalize t.events = evs at hemits hmem
    cases hemits with
    | nothing => simp at hmem
    | annotation =>
      obtain rfl := List.mem_singleton.mp hmem
      exact hinput
    | frame _ _ hchecksum =>
      have hthree := (cnt_of_inv_checksum hinv hchecksum.1).2.1
      have hfstart : s.fstart < 2 ^ w := hfits.1 (.inr hchecksum.1) (by omega)
      have hfend : s.fend < 2 ^ w := hfits.2 hchecksum.1
      obtain ⟨hstart, hstop⟩ := cksumEvents_span _ _ e hmem
      constructor
      · rcases hstart with hstart | hstart <;> rw [hstart]
        · exact hinput.1
        · exact hfstart
      · rcases hstop with hstop | hstop <;> rw [hstop]
        · exact hinput.2
        · exact hfend

/-- Settles O54: no case of a step writes the parameter, and each takes one input. -/
theorem parameterAndInputsAreOnlyRead : Obligations.ParameterAndInputsAreOnlyRead := by
  intro s t hstep
  cases stepsTo_of_step hstep <;> exact ⟨rfl, rfl⟩

end Sys2Proof.Machine
end
